-- ==== Sys2Proof/Word.lean ====
section
/-! DEFINITION. The word types and the transaction that arrives on a port (spec/30_encoding.md R50 to R53).

A data word, an accumulator, a published register and a scaler value are `W` bits wide (R13), and `W` is a
parameter of at most 64 (R16 C6).  A `Word` is 64 bits wide and holds a `W`-bit pattern in its low `W` bits,
the bits above being zero (notes/assumptions/2.md).  The arithmetic on `W`-bit patterns is in
`Machine/Operands.lean`. -/

namespace Sys2Proof

/-- A `W`-bit pattern, `W ≤ 64` (R13, R16 C6), zero-extended. -/
abbrev Word := BitVec 64

/-- The command word `CW[15:0]` (R51). -/
abbrev CmdWord := BitVec 16

/-- The two transaction ports (R50). -/
inductive Port where
  | producer
  | consumer
deriving DecidableEq, Repr

/-- One transaction as it arrives: the port, the command word and the data word (R51). -/
structure Transaction where
  port : Port
  cw : CmdWord
  dw : Word
deriving DecidableEq, Repr

end Sys2Proof
end

