-- ==== Sys2Proof/Config.lean ====
section
/-! DEFINITION. The configuration of a model instance (spec/00_scope.md R9 to R16, spec/10_state.md R36).

A configuration is a value of every parameter.  It is fixed for the life of an instance and is not hardware
state (R36); `Machine/State.lean` carries it so that every statement can hold for every configuration.
The admission check is in `Machine/Admission.lean`. -/

namespace Sys2Proof

/-- The parameters of R9 and R11 to R14.  The shifts are integers, as R14 says, so that C5's lower bound is a
check (with `EXTRA_BITS = 0` the default `BG_SHIFT` is `-1`). -/
structure Config where
  /-- `EXTRA_BITS` (R9). -/
  extraBits : Nat
  /-- `P`, the samples in each LO half-cycle (R11). -/
  p : Nat
  /-- `SW`, the width of a raw sample (R12). -/
  sw : Nat
  /-- `W`, the width of the accumulators, the published registers and the scaler (R13). -/
  w : Nat
  /-- `EXC_SHIFT` (R14). -/
  excShift : Int
  /-- `BG_SHIFT` (R14). -/
  bgShift : Int
deriving DecidableEq, Repr

/-- The constraints of R16, the first one that fails being what a refused configuration records (R98). -/
inductive Constraint where
  | c1 | c2 | c3 | c4 | c5 | c6
deriving DecidableEq, Repr

namespace Config

/-- `MOD_RESET = 1`: the modulation output's level at reset, not a free parameter (R15). -/
def modReset : Bool := true

/-- The defaults of R12 (`SW = 10`), R13 (`W = 32`) and R14 (`EXC_SHIFT = EXTRA_BITS`,
`BG_SHIFT = EXTRA_BITS - 1`); `EXTRA_BITS` and `P` have none. -/
def withDefaults (extraBits p : Nat) : Config where
  extraBits := extraBits
  p := p
  sw := 10
  w := 32
  excShift := extraBits
  bgShift := (extraBits : Int) - 1

/-- The configuration of the reset state: the source's worked scenario, `EXTRA_BITS = 6` and `P = 16`
(K4 of spec/95_test_vectors.md).  DESIGN CHOICE, notes/assumptions/1.md: R9 and R11 give no default. -/
def workedScenario : Config := withDefaults 6 16

end Config
end Sys2Proof
end

