-- ==== Sys2Proof/Machine/Operands.lean ====
section
/-! DEFINITION. Bits and values (spec/00_scope.md R17) and operand assembly (spec/30_encoding.md R54, R55).

Every function takes the width and looks at no bit above it, so a `Word` is read as the `W`-bit pattern in its
low bits. -/

namespace Sys2Proof.Machine

/-- `p[n-1:0]`, zero-extended (R17). -/
def lowBits (n : Nat) (p : Word) : Word := BitVec.ofNat 64 (p.toNat % 2 ^ n)

/-- `p[.. : n]`, the bits from `n` upwards as a number (R17); what R57 asks to be zero on `SAMPLE`. -/
def bitsFrom (n : Nat) (p : Word) : Nat := p.toNat / 2 ^ n

/-- `uint_W(p)`: the pattern read as unsigned (R17). -/
def uintW (w : Nat) (p : Word) : Nat := p.toNat % 2 ^ w

/-- `sint_W(p)`: the pattern read as two's complement (R17). -/
def sintW (w : Nat) (p : Word) : Int :=
  if uintW w p < 2 ^ (w - 1) then (uintW w p : Int) else (uintW w p : Int) - (2 ^ w : Nat)

/-- `wrap_W(v)`: the `W`-bit pattern of the integer `v mod 2^W` (R17). -/
def wrapW (w : Nat) (v : Int) : Word := BitVec.ofNat 64 (v % (2 ^ w : Nat)).toNat

/-- `p[W-1]`, the sign bit of a `W`-bit pattern (R17, R82). -/
def signBit (w : Nat) (p : Word) : Bool := p.getLsbD (w - 1)

/-- `SAMPLE`'s operand, `v = zext_W(DW[SW-1:0])`: a non-negative integer, never negated or scaled (R54, R65). -/
def sampleValue (c : Config) (raw : Word) : Nat := raw.toNat % 2 ^ c.sw

/-- `SSHR`'s shift amount, `n = uint_6(CW[5:0])` (R55). -/
def shiftAmount (n : BitVec 6) : Nat := n.toNat

/-- A configured shift amount; an integer in `0 .. 63` in every admitted configuration (R14, R16 C5). -/
def configShift (n : Int) : Nat := n.toNat

end Sys2Proof.Machine
end

