-- ==== Sys2Proof/Syntax.lean ====
section
/-! DEFINITION. The commands, one constructor for each row of spec/opcode_table.json (spec/30_encoding.md R56). -/

namespace Sys2Proof

/-- A decoded command.  Operands are kept as the bits the transaction carries (R54, R55). -/
inductive Instr where
  /-- `NOP` (R63). -/
  | nop
  /-- `SAMPLE`: `raw` is the raw sample `DW[SW-1:0]` (R64, R54). -/
  | sample (raw : Word)
  /-- `POLL` (R91). -/
  | poll
  /-- `CONSUME` (R92). -/
  | consume
  /-- `PEEK` (R93). -/
  | peek
  /-- `SSHR`: `x` is the whole data word, read as `sint_W`, and `n` is `CW[5:0]` (R88, R55). -/
  | sshr (x : Word) (n : BitVec 6)
deriving DecidableEq, Repr

end Sys2Proof
end

