-- ==== Sys2Proof/WellFormed.lean ====
section
/-! DEFINITION. Which commands the encoding can carry in a configuration (spec/30_encoding.md R53 to R55). -/

namespace Sys2Proof

/-- The operand ranges of R54 (`0 .. 2^SW - 1`) and R55 (a `W`-bit pattern; the 6-bit shift amount is bounded by
its type). -/
def Instr.wf (c : Config) : Instr → Bool
  | .nop => true
  | .sample raw => raw.toNat < 2 ^ c.sw
  | .poll => true
  | .consume => true
  | .peek => true
  | .sshr x _ => x.toNat < 2 ^ c.w

/-- The ports that carry each command (R50, R56). -/
def Instr.carriedBy : Instr → Port → Bool
  | .nop, _ => true
  | .sample _, port => port == .producer
  | .poll, port => port == .consumer
  | .consume, port => port == .consumer
  | .peek, port => port == .consumer
  | .sshr _ _, port => port == .consumer

end Sys2Proof
end

