-- ==== Sys2Proof/Decode.lean ====
section
/-! DEFINITION. Decoding a transaction, encoding a command, and the assembler lines (spec/30_encoding.md R51 to R58,
R60, R61).  The decoder is total and answers a command or the first refusal reason in R58's order. -/

namespace Sys2Proof

open Sys2Proof.Machine (lowBits bitsFrom wrapW)

/-- The refusal reasons of R98.  They are model bookkeeping, not hardware outputs. -/
inductive RefusalReason where
  /-- `CMD = 110` or `111`. -/
  | reservedCmd
  /-- `RSV != 0`; `N != 0` outside `SSHR`; `DW != 0` on a command that uses no data word. -/
  | rsvBits
  /-- `SAMPLE` with `DW[W-1:SW] != 0`. -/
  | sampleRange
  /-- A command on a port that does not carry it. -/
  | wrongPort
  /-- A configuration that fails R16; the decoder never answers it. -/
  | config
deriving DecidableEq, Repr

/-- R98's code of each reason. -/
def RefusalReason.code : RefusalReason → Nat
  | .reservedCmd => 1
  | .rsvBits => 2
  | .sampleRange => 3
  | .wrongPort => 4
  | .config => 5

/-- `CMD = CW[15:13]` (R52). -/
def cmdField (cw : CmdWord) : BitVec 3 := cw.extractLsb' 13 3

/-- `RSV = CW[12:6]` (R52). -/
def rsvField (cw : CmdWord) : BitVec 7 := cw.extractLsb' 6 7

/-- `N = CW[5:0]` (R52). -/
def nField (cw : CmdWord) : BitVec 6 := cw.extractLsb' 0 6

/-- The commands of R56's map, before operands. -/
inductive Command where
  | nop | sample | poll | consume | peek | sshr
deriving DecidableEq, Repr

/-- R56's map; `110` and `111` are reserved. -/
def commandOf (cmd : BitVec 3) : Option Command :=
  if cmd = 0b000#3 then some .nop
  else if cmd = 0b001#3 then some .sample
  else if cmd = 0b010#3 then some .poll
  else if cmd = 0b011#3 then some .consume
  else if cmd = 0b100#3 then some .peek
  else if cmd = 0b101#3 then some .sshr
  else none

/-- The commands whose data word is unused and must be 0 (R53). -/
def Command.noData : Command → Bool
  | .nop => true
  | .sample => false
  | .poll => true
  | .consume => true
  | .peek => true
  | .sshr => false

/-- The commands that only the consumer port carries (R58). -/
def Command.consumerOnly : Command → Bool
  | .nop => false
  | .sample => false
  | .poll => true
  | .consume => true
  | .peek => true
  | .sshr => true

/-- The command with its operands taken from the transaction's fields (R53 to R55). -/
def Command.instr (cw : CmdWord) (dw : Word) : Command → Instr
  | .nop => .nop
  | .sample => .sample dw
  | .poll => .poll
  | .consume => .consume
  | .peek => .peek
  | .sshr => .sshr dw (nField cw)

/-- The transaction as the block's wires carry it: `DW` has `W` bits (R51), so bits above are not there. -/
def onWires (c : Config) (tx : Transaction) : Transaction := { tx with dw := lowBits c.w tx.dw }

/-- `decode(port, CW, DW)` of R58, check by check in its order. -/
def decode (c : Config) (tx : Transaction) : Except RefusalReason Instr :=
  let dw := lowBits c.w tx.dw
  match commandOf (cmdField tx.cw) with
  | none => .error .reservedCmd
  | some op =>
    if rsvField tx.cw ≠ 0#7 then .error .rsvBits
    else if op ≠ .sshr ∧ nField tx.cw ≠ 0#6 then .error .rsvBits
    else if op.noData = true ∧ dw ≠ 0#64 then .error .rsvBits
    else if op = .sample ∧ bitsFrom c.sw dw ≠ 0 then .error .sampleRange
    else if op = .sample ∧ tx.port ≠ .producer then .error .wrongPort
    else if op.consumerOnly = true ∧ tx.port ≠ .consumer then .error .wrongPort
    else .ok (op.instr tx.cw dw)

/-! ## The encoder (R52, R53, R56, R60) -/

/-- The command word of R56's table. -/
def encodeCw : Instr → CmdWord
  | .nop => 0x0000#16
  | .sample _ => 0x2000#16
  | .poll => 0x4000#16
  | .consume => 0x6000#16
  | .peek => 0x8000#16
  | .sshr _ n => 0xA000#16 + n.setWidth 16

/-- The data word of R53's table. -/
def encodeDw : Instr → Word
  | .nop => 0#64
  | .sample raw => raw
  | .poll => 0#64
  | .consume => 0#64
  | .peek => 0#64
  | .sshr x _ => x

/-- The words of a command, `CW` and `DW`. -/
def encode (i : Instr) : CmdWord × Word := (encodeCw i, encodeDw i)

/-- The transaction that carries a command on a port. -/
def encodeOn (port : Port) (i : Instr) : Transaction where
  port := port
  cw := encodeCw i
  dw := encodeDw i

/-! ## Assembler lines (R60) and pseudo-instructions (R61) -/

/-- R60's lines that are transactions (its `reset` line is the reset input), and R61's pseudo-instructions that
expand to transactions.  `wait_ready` is a loop of the foreground, "not in the block" (R61). -/
inductive AsmLine where
  /-- `nop` -/
  | nop
  /-- `nop.p` -/
  | nopP
  /-- `sample v` -/
  | sample (v : Nat)
  /-- `poll` -/
  | poll
  /-- `consume` -/
  | consume
  /-- `peek` -/
  | peek
  /-- `sshr x, n` -/
  | sshr (x : Int) (n : Nat)
  /-- `sample*k v` -/
  | sampleTimes (k v : Nat)
  /-- `samples v1, v2, ..., vk` -/
  | samples (vs : List Nat)
deriving DecidableEq, Repr

/-- `sample v` of R60: producer port, `CW = 0x2000`, `DW = v`. -/
def sampleLine (v : Nat) : Transaction where
  port := .producer
  cw := 0x2000#16
  dw := BitVec.ofNat 64 v

/-- The operand ranges R60 gives a line. -/
def AsmLine.inRange (c : Config) : AsmLine → Bool
  | .nop => true
  | .nopP => true
  | .sample v => v < 2 ^ c.sw
  | .poll => true
  | .consume => true
  | .peek => true
  | .sshr x n => -(2 ^ (c.w - 1) : Nat) ≤ x && x ≤ (2 ^ (c.w - 1) : Nat) - 1 && n ≤ 63
  | .sampleTimes _ v => v < 2 ^ c.sw
  | .samples vs => vs.all fun v => v < 2 ^ c.sw

/-- The transactions a line stands for, by R60's table and R61's expansions. -/
def AsmLine.assemble (c : Config) : AsmLine → List Transaction
  | .nop => [⟨.consumer, 0x0000#16, 0#64⟩]
  | .nopP => [⟨.producer, 0x0000#16, 0#64⟩]
  | .sample v => [sampleLine v]
  | .poll => [⟨.consumer, 0x4000#16, 0#64⟩]
  | .consume => [⟨.consumer, 0x6000#16, 0#64⟩]
  | .peek => [⟨.consumer, 0x8000#16, 0#64⟩]
  | .sshr x n => [⟨.consumer, 0xA000#16 + BitVec.ofNat 16 n, wrapW c.w x⟩]
  | .sampleTimes k v => List.replicate k (sampleLine v)
  | .samples vs => vs.map sampleLine

/-! ## Words numbered as the opcode table numbers them -/

/-- The port that carries the command of a command word (R56); for `NOP`, which either port carries, and for a
reserved command, the consumer port, as R60 writes `nop`. -/
def homePort (cw : CmdWord) : Port := if cmdField cw = 0b001#3 then .producer else .consumer

/-- The transaction of an instruction whose bits are `w`: `CW` is bits 15 to 0 and `DW` the bits from 16 upwards,
zero where the table gives none. -/
def tableTransaction (nbits w : Nat) : Transaction :=
  let bits := w % 2 ^ nbits
  let cw := BitVec.ofNat 16 bits
  { port := homePort cw, cw := cw, dw := BitVec.ofNat 64 (bits / 2 ^ 16) }

/-- The instruction the decoder reads from an instruction of the opcode table whose bits are `w`, in the reset
state's configuration. -/
def decodeTableWord (nbits w : Nat) : Option Instr :=
  (decode Config.workedScenario (tableTransaction nbits w)).toOption

end Sys2Proof
end

