-- ==== Sys2Proof/Machine/Admission.lean ====
section
/-! DEFINITION. The decimation length and the admission of a configuration (spec/00_scope.md R10, R16;
spec/60_exceptions.md R98; spec/70_reset_and_hazards.md R113). -/

namespace Sys2Proof
namespace Config

/-- `L = 4^EXTRA_BITS`, the decimation length (R10). -/
def windowLength (c : Config) : Nat := 4 ^ c.extraBits

/-- The constraint as R16 writes it.  In C4 the bound `2^(W-1) - 1` is read over the integers, so a width of
zero fails it. -/
def satisfies (c : Config) : Constraint → Bool
  | .c1 => 1 ≤ c.extraBits
  | .c2 => 1 ≤ c.p
  | .c3 => c.windowLength % (2 * c.p) == 0
  | .c4 => 1 ≤ c.w && (2 ^ c.sw - 1) * c.windowLength ≤ 2 ^ (c.w - 1) - 1
  | .c5 => 0 ≤ c.excShift && c.excShift ≤ 63 && 0 ≤ c.bgShift && c.bgShift ≤ 63
  | .c6 => c.sw + 1 ≤ c.w && c.w ≤ 64

/-- The constraints in R16's order. -/
def constraints : List Constraint := [.c1, .c2, .c3, .c4, .c5, .c6]

/-- The first constraint of R16 that fails, or none: what a refused configuration records (R98). -/
def firstFailure (c : Config) : Option Constraint :=
  constraints.find? fun k => !c.satisfies k

/-- A configuration is admitted only if all of C1 to C6 hold (R16). -/
abbrev Admitted (c : Config) : Prop := c.firstFailure = none

end Config
end Sys2Proof
end

