-- ==== Sys2Proof/Machine/State.lean ====
section
/-! DEFINITION. The state of the block (spec/10_state.md), its reset value (spec/70_reset_and_hazards.md R112), and
the reasons a step can stop.  The block has no register file, program counter, memory, mode or flag register (R20, R21,
R32, R37, R106), so State has none. -/

namespace Sys2Proof.Machine

/-- Exceptions of the block: none exist (R97 "The block raises no exception and has no trap"), so no step raises one
and the type has no constructor. -/
inductive Fault where
deriving DecidableEq, Repr

/-- Why the model has no next state. -/
inductive Refusal where
  /-- An instruction without a meaning, by its mnemonic; no arm of `exec` raises it.  Safe: the model says nothing. -/
  | notModelled (mnemonic : String)
  /-- `REF_CONFIG` (R98 code 5), raised by `step`: the configuration fails this constraint of R16, and "a refused
  configuration admits no step at all" (R99).  Safe: it is the spec's own refusal. -/
  | config (failed : Constraint)
  /-- Raised by `step` when no event has arrived: each step is a transaction or a reset (R19), so there is no step to
  take.  The block is not halted (R124): it steps when an event arrives.  Safe: the model says nothing. -/
  | noEvent
deriving DecidableEq, Repr

/-- The hardware's registers: all nine of R31's table, under the spec's names.  A 1-bit register is a Bool. -/
structure Regs where
  /-- `EXCITING`: false is Background, true is Excitation (R22). -/
  exciting : Bool
  /-- `PCNT`, the samples since the last phase flip, a bounded natural (R23, decision D4). -/
  pcnt : Nat
  /-- `ACC_EXC`, a `W`-bit two's complement pattern (R24). -/
  accExc : Word
  /-- `ACC_BG`, a `W`-bit two's complement pattern (R25). -/
  accBg : Word
  /-- `SCNT`, the samples taken in the current window, a bounded natural (R26, decision D4). -/
  scnt : Nat
  /-- `PUB_EXC`, a `W`-bit pattern read as signed (R27). -/
  pubExc : Word
  /-- `PUB_BG`, a `W`-bit two's complement pattern (R28). -/
  pubBg : Word
  /-- `READY` (R29). -/
  ready : Bool
  /-- `MOD_OUT`, the level last commanded on the modulation output (R30). -/
  modOut : Bool
deriving DecidableEq, Repr

/-- The reset values of R112's table. -/
def Regs.reset : Regs where
  exciting := false
  pcnt := 0
  accExc := 0#64
  accBg := 0#64
  scnt := 0
  pubExc := 0#64
  pubBg := 0#64
  ready := false
  modOut := Config.modReset

/-- The fields `CONSUME` and `PEEK` respond with (R59). -/
structure MailboxReport where
  valid : Bool
  excRaw : Word
  bgRaw : Word
  excScaled : Word
  bgScaled : Word
  diff : Word
deriving DecidableEq, Repr

/-- The response record of a transaction, one constructor per command; a field R59 does not list is absent. -/
inductive Response where
  | nop
  | sample (pub : Bool) (modSet : Bool) (modLevel : Bool)
  | poll (ready : Bool)
  | consume (report : MailboxReport)
  | peek (report : MailboxReport)
  | sshr (y : Word)
deriving DecidableEq, Repr

/-- What the `REFUSED` mark records (R98): a refused transaction with its reason and `(port, CW, DW)`, or the first
constraint a refused configuration fails. -/
inductive RefusalRecord where
  | transaction (reason : RefusalReason) (tx : Transaction)
  | configuration (failed : Constraint)
deriving DecidableEq, Repr

/-- What one step is (R19): a transaction arriving at a port, or a reset. -/
inductive Event where
  | transaction (tx : Transaction)
  | reset
deriving DecidableEq, Repr

/-- The state of a model instance: its configuration, the hardware's registers, the spec's bookkeeping mark, and the
block's environment (the events to come, and what the last step showed). -/
structure State where
  /-- The configuration; no step writes it (R36). -/
  cfg : Config
  /-- The hardware's registers (R31). -/
  regs : Regs
  /-- The sticky mark `REFUSED` with its reasons, oldest first; set exactly when the list is not empty (R35, R98;
  every record is kept, notes/assumptions/5.md). -/
  refused : List RefusalRecord
  /-- The events still to come, in their total order (R43): every list is one interleaving of the ports and of
  reset (notes/assumptions/4.md). -/
  inputs : List Event
  /-- The response of the last step; none after a reset or a refused transaction (R59, R99, R111). -/
  rsp : Option Response
  /-- The set events the last step emitted, oldest first (R18, R76). -/
  setEvents : List Bool
deriving DecidableEq, Repr

/-- The mark a configuration's check leaves before the first reset (R98, R113). -/
def configMark (c : Config) : List RefusalRecord :=
  match c.firstFailure with
  | none => []
  | some k => [.configuration k]

/-- The instance of a configuration right after its first reset (R111 to R114), with no event arrived yet. -/
def State.resetWith (c : Config) : State where
  cfg := c
  regs := Regs.reset
  refused := configMark c
  inputs := []
  rsp := none
  setEvents := []

/-- The machine right after reset, in the source's worked configuration (notes/assumptions/1.md). -/
def State.reset : State := State.resetWith Config.workedScenario

end Sys2Proof.Machine
end

