-- ==== Sys2Proof/Machine/Flags.lean ====
section
/-! DEFINITION. The block's only status bits, `READY` and `EXCITING` (spec/10_state.md R32), and the two level outputs
(spec/30_encoding.md R59).  No condition code, carry or overflow flag exists, and an overflow is not flagged (R101). -/

namespace Sys2Proof.Machine

/-- A publish sets `READY`, whatever it was (R29, R69). -/
def Regs.setReady (r : Regs) : Regs := { r with ready := true }

/-- `CONSUME` clears `READY`, always (R29, R92). -/
def Regs.clearReady (r : Regs) : Regs := { r with ready := false }

/-- Entering a phase: `EXCITING` takes it and `MOD_OUT` is commanded high on entering Excitation, low on entering
Background (R75). -/
def Regs.enterPhase (exciting : Bool) (r : Regs) : Regs := { r with exciting := exciting, modOut := exciting }

/-- `ready_o = READY`, at all times (R59, R102). -/
def State.readyO (s : State) : Bool := s.regs.ready

/-- `mod_out = MOD_OUT`, at all times (R59, R76). -/
def State.modOutLevel (s : State) : Bool := s.regs.modOut

end Sys2Proof.Machine
end

