-- ==== Sys2Proof/Machine/Ops.lean ====
section
/-! DEFINITION. The named operations of a step: taking the next event, answering a transaction, refusing one, and reset
(spec/00_scope.md R19; spec/60_exceptions.md R98, R99; spec/70_reset_and_hazards.md R111).

The block takes no exception and has no trap return (R97, R104, R105): there is no operation for either.  It has no
memory (R37): there is no operation over one. -/

namespace Sys2Proof.Machine

/-- A transaction's answer: the registers it leaves, the set events it emitted and its response (R18, R59). -/
def State.answer (regs : Regs) (setEvents : List Bool) (rsp : Response) (s : State) : State :=
  { s with regs := regs, setEvents := setEvents, rsp := some rsp }

/-- An answer that writes no register and emits nothing. -/
def State.respond (rsp : Response) (s : State) : State := s.answer s.regs [] rsp

/-- A refused transaction writes no architectural state, returns no response, and sets the `REFUSED` mark with its
reason and `(port, CW, DW)` (R98, R99). -/
def State.refuse (reason : RefusalReason) (tx : Transaction) (s : State) : State :=
  { s with refused := s.refused ++ [.transaction reason tx], setEvents := [], rsp := none }

/-- A reset writes every register's reset value, emits no set event and returns no response; it leaves the
configuration and the `REFUSED` mark alone (R111, R35). -/
def State.takeReset (s : State) : State :=
  { s with regs := Regs.reset, setEvents := [], rsp := none }

/-- What the next step is to do. -/
inductive Action where
  /-- There is no step to take. -/
  | stop (why : Refusal)
  /-- The reset input (R111). -/
  | reset (s : State)
  /-- A transaction the decoder refuses. -/
  | refuse (reason : RefusalReason) (tx : Transaction) (s : State)
  /-- A transaction the decoder accepts. -/
  | run (i : Instr) (s : State)
deriving DecidableEq, Repr

/-- The next event, taken off the order of events and decoded; the configuration is checked first (R113). -/
def nextAction (s : State) : Action :=
  match s.cfg.firstFailure with
  | some k => .stop (.config k)
  | none =>
    match s.inputs with
    | [] => .stop .noEvent
    | .reset :: rest => .reset { s with inputs := rest }
    | .transaction tx :: rest =>
      match decode s.cfg tx with
      | .error reason => .refuse reason (onWires s.cfg tx) { s with inputs := rest }
      | .ok i => .run i { s with inputs := rest }

/-- `s` with a transaction as the next event. -/
def State.arriving (tx : Transaction) (s : State) : State :=
  { s with inputs := .transaction tx :: s.inputs }

end Sys2Proof.Machine
end

