-- ==== Sys2Proof/Machine/Scaler.lean ====
section
/-! DEFINITION. The signed-accumulator scaler: `scale_W`, `SCALEPUB` and `SSHR` (spec/42_scaler.md).  No signed value is
ever shifted (R82, R83). -/

namespace Sys2Proof.Machine

/-- `scale_W(x, n)`, the bit-exact variant: a non-negative pattern is shifted as unsigned; a negative one is negated
modulo `2^W`, shifted as unsigned and negated again (R82). -/
def scaleW (w : Nat) (x : Word) (n : Nat) : Word :=
  if signBit w x then
    wrapW w (0 - (uintW w (wrapW w (0 - sintW w x)) >>> n : Nat))
  else
    wrapW w (uintW w x >>> n : Nat)

/-- `SCALEPUB()`'s scaled excitation level (R89). -/
def excScaled (c : Config) (r : Regs) : Word := scaleW c.w r.pubExc (configShift c.excShift)

/-- `SCALEPUB()`'s scaled background level (R89). -/
def bgScaled (c : Config) (r : Regs) : Word := scaleW c.w r.pubBg (configShift c.bgShift)

/-- `SCALEPUB()`'s difference, `wrap_W(sint_W(e) - sint_W(b))` (R89). -/
def scaledDiff (c : Config) (r : Regs) : Word :=
  wrapW c.w (sintW c.w (excScaled c r) - sintW c.w (bgScaled c r))

/-- `SSHR x, n`: the scaler on any signed operand; no register is read or written (R88). -/
def execSshr (x : Word) (n : BitVec 6) (s : State) : Host.Outcome State Fault Refusal :=
  .next (s.respond (.sshr (scaleW s.cfg.w x (shiftAmount n))))

end Sys2Proof.Machine
end

