-- ==== Sys2Proof/Machine/Consumer.lean ====
section
/-! DEFINITION. The consumer port's mailbox commands: `POLL`, `CONSUME` and `PEEK` (spec/43_consumer.md). -/

namespace Sys2Proof.Machine

/-- `POLL`: read `READY`; nothing is written (R91). -/
def execPoll (s : State) : Host.Outcome State Fault Refusal :=
  .next (s.respond (.poll s.regs.ready))

/-- The mailbox as `CONSUME` and `PEEK` report it: `valid` is `READY` as it stood before the step (R92, R94). -/
def mailboxReport (c : Config) (r : Regs) : MailboxReport where
  valid := r.ready
  excRaw := r.pubExc
  bgRaw := r.pubBg
  excScaled := excScaled c r
  bgScaled := bgScaled c r
  diff := scaledDiff c r

/-- `CONSUME`: the atomic read, scale and clear of the mailbox; only `READY` is written (R92). -/
def execConsume (s : State) : Host.Outcome State Fault Refusal :=
  .next (s.answer s.regs.clearReady [] (.consume (mailboxReport s.cfg s.regs)))

/-- `PEEK`: the same report without the clear (R93). -/
def execPeek (s : State) : Host.Outcome State Fault Refusal :=
  .next (s.respond (.peek (mailboxReport s.cfg s.regs)))

end Sys2Proof.Machine
end

