-- ==== Sys2Proof/Machine/LoGenerator.lean ====
section
/-! DEFINITION. The LO generator, a sub-step of every `SAMPLE` (spec/41_lo_generator.md R75 to R77). -/

namespace Sys2Proof.Machine

/-- What a sub-step of the LO leaves: the registers, the set events emitted so far in this step, and the pair
`(mod_set, mod_level)` for the response. -/
structure LoResult where
  regs : Regs
  setEvents : List Bool
  modSet : Bool
  modLevel : Bool
deriving DecidableEq, Repr

/-- `LO_ADVANCE()` (R75): count one sample, and at `P` toggle the phase, command the output and clear the count. -/
def loAdvance (p : Nat) (r : Regs) : LoResult :=
  if r.pcnt + 1 = p then
    { regs := { r.enterPhase (!r.exciting) with pcnt := 0 }
      setEvents := [!r.exciting]
      modSet := true
      modLevel := !r.exciting }
  else
    { regs := { r with pcnt := r.pcnt + 1 }
      setEvents := []
      modSet := false
      modLevel := false }

/-- `LO_RESYNC(mset, mlev)` (R77): force the LO to a window's start, Background with a pulse count of 0. -/
def loResync (a : LoResult) : LoResult :=
  if a.regs.exciting then
    { regs := { a.regs.enterPhase false with pcnt := 0 }
      setEvents := a.setEvents ++ [false]
      modSet := true
      modLevel := false }
  else
    { a with regs := { a.regs with pcnt := 0 } }

end Sys2Proof.Machine
end

