-- ==== Sys2Proof/Machine/Engine.lean ====
section
/-! DEFINITION. The demodulation engine: `NOP` and `SAMPLE` (spec/40_engine.md). -/

namespace Sys2Proof.Machine

/-- `NOP`: no register is read or written, and the response is empty (R63). -/
def execNop (s : State) : Host.Outcome State Fault Refusal :=
  .next (s.respond .nop)

/-- An accumulator add, `wrap_W(sint_W(ACC) + v)` (R67). -/
def accumulate (w : Nat) (acc : Word) (v : Nat) : Word := wrapW w (sintW w acc + v)

/-- Steps 1 and 2: the sample goes to exactly one bucket, by the phase before this step's LO advance (R65, R66). -/
def classify (c : Config) (raw : Word) (r : Regs) : Regs :=
  if r.exciting then { r with accExc := accumulate c.w r.accExc (sampleValue c raw) }
  else { r with accBg := accumulate c.w r.accBg (sampleValue c raw) }

/-- Step 3: count the sample (R68). -/
def countSample (r : Regs) : Regs := { r with scnt := r.scnt + 1 }

/-- Whether the count has reached `L`, by exact equality (R69). -/
def windowFull (c : Config) (r : Regs) : Bool := r.scnt == c.windowLength

/-- Step 4's publish: copy both sums, zero both accumulators and the count, set `READY` (R69). -/
def publish (r : Regs) : Regs :=
  { r.setReady with
    pubExc := r.accExc
    pubBg := r.accBg
    accExc := 0#64
    accBg := 0#64
    scnt := 0 }

/-- Steps 4 and 5 on a counted sample: publish at the window boundary, advance the LO, and re-synchronise it in a step
that published (R64, R69, R70). -/
def closeSample (c : Config) (r : Regs) : LoResult :=
  if windowFull c r then loResync (loAdvance c.p (publish r)) else loAdvance c.p r

/-- `SAMPLE` (R64): one raw sample through the five steps of the engine, in the document's order. -/
def execSample (raw : Word) (s : State) : Host.Outcome State Fault Refusal :=
  let counted := countSample (classify s.cfg raw s.regs)
  let lo := closeSample s.cfg counted
  .next (s.answer lo.regs lo.setEvents (.sample (windowFull s.cfg counted) lo.modSet lo.modLevel))

end Sys2Proof.Machine
end

