-- ==== Sys2Proof/Machine/Dispatch.lean ====
section
/-! DEFINITION. One arm per command (spec/30_encoding.md R56). -/

namespace Sys2Proof.Machine

def exec (i : Instr) (s : State) : Host.Outcome State Fault Refusal :=
  match i with
  | .nop => Sys2Proof.Machine.execNop s
  | .sample raw => Sys2Proof.Machine.execSample raw s
  | .poll => Sys2Proof.Machine.execPoll s
  | .consume => Sys2Proof.Machine.execConsume s
  | .peek => Sys2Proof.Machine.execPeek s
  | .sshr x n => Sys2Proof.Machine.execSshr x n s

end Sys2Proof.Machine
end

