-- ==== Sys2Proof/Machine/Step.lean ====
section
/-! DEFINITION. One step of the block (spec/00_scope.md R19): the next event of the total order, atomically (R41, R43). -/

namespace Sys2Proof.Machine

/-- One step: the next transaction or reset takes effect.  A refused transaction is a step that leaves its record
(R99); a refused configuration has no step (R99, R113). -/
def step (s : State) : Host.Outcome State Fault Refusal :=
  match nextAction s with
  | .stop why => .refused why
  | .reset s' => .next s'.takeReset
  | .refuse reason tx s' => .next (s'.refuse reason tx)
  | .run i s' => exec i s'

/-- `s` with the opcode-table instruction `w` arriving as the next transaction, on the port that carries its command
(`nbits` bits of it are given; those above are zero).  The block fetches no instruction (R48): a program is the order
of transactions its environment issues (notes/assumptions/4.md). -/
def State.withFetchWord (s : State) (nbits w : Nat) : State := s.arriving (tableTransaction nbits w)

end Sys2Proof.Machine
end

