-- ==== Sys2Proof/Safety.lean ====
section
/-! DEFINITION. Runs, what a run shows, the history a run's claims are stated in, the invariant of the states a run
reaches, and what ties a state to its history (spec/10_state.md R34; spec/70_reset_and_hazards.md R124;
spec/41_lo_generator.md R79, R80).

A run is a number of steps from a state whose `inputs` hold the events, in any order (R43).  A claim about a run of an
implementation takes "no refusal recorded" as a premise (R35, R99): `NoRefusal`. -/

namespace Sys2Proof.Safety

open Sys2Proof.Machine

/-- No refusal is recorded: the `REFUSED` mark is clear (R35, R99). -/
abbrev NoRefusal (s : State) : Prop := s.refused = []

/-- `k` steps of the block, stopping where no step exists (R124). -/
def run (k : Nat) (s : State) : Host.Outcome State Fault Refusal := Host.Core.run core k s

/-- The states after each of up to `k` steps, first to last. -/
def statesOver : Nat → State → List State
  | 0, _ => []
  | k + 1, s =>
    match step s with
    | .next t => t :: statesOver k t
    | .fault _ => []
    | .refused _ => []

/-- The set events a run shows (R124). -/
def setEventsOver (k : Nat) (s : State) : List Bool := (statesOver k s).flatMap fun t => t.setEvents

/-- How many of up to `k` steps change the level of `mod_out` (R80). -/
def pinTransitions : Nat → State → Nat
  | 0, _ => 0
  | k + 1, s =>
    match step s with
    | .next t => (if t.modOutLevel = s.modOutLevel then 0 else 1) + pinTransitions k t
    | .fault _ => 0
    | .refused _ => 0

/-- The report of a `CONSUME` that found the mailbox full. -/
def validConsume (s : State) : Option MailboxReport :=
  match s.rsp with
  | some (.consume m) => if m.valid then some m else none
  | _ => none

/-- The reports with `valid = 1` that the `CONSUME`s of a run return, first to last. -/
def validReportsOver (k : Nat) (s : State) : List MailboxReport := (statesOver k s).filterMap validConsume

/-! ## History: what arrived since the last reset -/

/-- What a claim remembers of the events since the last reset: the values of the accepted samples in their order, and
how many windows were published since the last accepted `CONSUME`. -/
structure History where
  samples : List Nat
  unread : Nat
deriving DecidableEq, Repr

/-- The history right after a reset. -/
def History.start : History := ⟨[], 0⟩

/-- An accepted command's mark on the history: a sample is appended, and every `L`-th one completes a window. -/
def History.command (c : Config) (h : History) : Instr → History
  | .nop => h
  | .sample raw =>
    { samples := h.samples ++ [sampleValue c raw]
      unread := if (h.samples.length + 1) % c.windowLength = 0 then h.unread + 1 else h.unread }
  | .poll => h
  | .consume => { h with unread := 0 }
  | .peek => h
  | .sshr _ _ => h

/-- An event's mark on the history; a refused transaction leaves none (R99). -/
def History.event (c : Config) (h : History) : Event → History
  | .reset => History.start
  | .transaction tx =>
    match decode c tx with
    | .ok i => h.command c i
    | .error _ => h

/-- The history of a list of events that starts with a reset. -/
def historyOf (c : Config) (es : List Event) : History := es.foldl (History.event c) History.start

/-- The consumer keeps up: at no point of the events are two windows unread (R45). -/
abbrev KeepsUp (c : Config) (es : List Event) : Prop := ∀ k ≤ es.length, (historyOf c (es.take k)).unread ≤ 1

/-! ## Windows and buckets -/

/-- The samples of the window in progress. -/
def currentWindow (c : Config) (vs : List Nat) : List Nat := vs.drop (vs.length / c.windowLength * c.windowLength)

/-- The samples of the `k`-th window since reset, counted from 0. -/
def window (c : Config) (vs : List Nat) (k : Nat) : List Nat := (vs.drop (k * c.windowLength)).take c.windowLength

/-- The samples of the last complete window since reset; none before the first. -/
def lastWindow (c : Config) (vs : List Nat) : List Nat :=
  match vs.length / c.windowLength with
  | 0 => []
  | m + 1 => window c vs m

/-- The sum of a window's Excitation samples: sample `j`, counted from 0, is one exactly when `floor(j / P)` is odd
(R73). -/
def excSum (c : Config) (ws : List Nat) : Nat := ((ws.zipIdx.filter fun x => x.2 / c.p % 2 == 1).map Prod.fst).sum

/-- The sum of a window's Background samples. -/
def bgSum (c : Config) (ws : List Nat) : Nat := ((ws.zipIdx.filter fun x => x.2 / c.p % 2 == 0).map Prod.fst).sum

/-- How many of a window's first `k` samples are Excitation samples. -/
def excCount (p : Nat) : Nat → Nat
  | 0 => 0
  | k + 1 => excCount p k + k / p % 2

/-- How many of a window's first `k` samples are Background samples. -/
def bgCount (p : Nat) : Nat → Nat
  | 0 => 0
  | k + 1 => bgCount p k + (1 - k / p % 2)

/-! ## The invariant of R34 -/

/-- R34 as a property of one state, whatever brought it about: the history's part of items 4 and 5 is kept by what it
implies of the state (before the first flip nothing was published; a sum holds no more than its bucket's samples can
add up to). -/
structure Inv (s : State) : Prop where
  /-- The configuration is admitted. -/
  admitted : s.cfg.Admitted
  /-- Item 1. -/
  scnt_lt : s.regs.scnt < s.cfg.windowLength
  /-- Item 2. -/
  pcnt_eq : s.regs.pcnt = s.regs.scnt % s.cfg.p
  /-- Item 3. -/
  exciting_eq : s.regs.exciting = (s.regs.scnt / s.cfg.p % 2 == 1)
  /-- Item 4: the output follows the phase, or no flip has happened since the reset. -/
  modOut_eq : s.regs.modOut = s.regs.exciting ∨
    (s.regs.modOut = true ∧ s.regs.scnt < s.cfg.p ∧ s.regs.ready = false ∧ s.regs.pubExc = 0#64 ∧ s.regs.pubBg = 0#64)
  /-- Item 6, sample by sample. -/
  accExc_le : s.regs.accExc.toNat ≤ (2 ^ s.cfg.sw - 1) * excCount s.cfg.p s.regs.scnt
  /-- Item 6, sample by sample. -/
  accBg_le : s.regs.accBg.toNat ≤ (2 ^ s.cfg.sw - 1) * bgCount s.cfg.p s.regs.scnt
  /-- Item 7. -/
  pubExc_le : s.regs.pubExc.toNat ≤ (2 ^ s.cfg.sw - 1) * (s.cfg.windowLength / 2)
  /-- Item 7. -/
  pubBg_le : s.regs.pubBg.toNat ≤ (2 ^ s.cfg.sw - 1) * (s.cfg.windowLength / 2)

/-! ## The states a history leaves -/

/-- The state is one that `h`, the events since the last reset, leaves: what R29, R34, R69, R73 and R79 say of a run's
state, as a property of a history and a state that one step keeps.  The sums are compared as signed values. -/
structure Follows (h : History) (s : State) : Prop where
  /-- The configuration is admitted. -/
  admitted : s.cfg.Admitted
  /-- Every sample is in the ADC's range (R12). -/
  samples_lt : ∀ v ∈ h.samples, v < 2 ^ s.cfg.sw
  /-- The samples of the window in progress are counted (R26). -/
  scnt_eq : s.regs.scnt = h.samples.length % s.cfg.windowLength
  /-- The samples since the last flip are counted (R23, R79). -/
  pcnt_eq : s.regs.pcnt = h.samples.length % s.cfg.p
  /-- Excitation exactly when `floor(n / P)` is odd (R79). -/
  exciting_eq : s.regs.exciting = (h.samples.length / s.cfg.p % 2 == 1)
  /-- The output holds its reset level before the first flip and follows the phase after it (R30, R80). -/
  modOut_eq : s.regs.modOut = if h.samples.length < s.cfg.p then Config.modReset else s.regs.exciting
  /-- The Excitation bucket of the window in progress (R24, R73). -/
  accExc_eq : sintW s.cfg.w s.regs.accExc = excSum s.cfg (currentWindow s.cfg h.samples)
  /-- The Background bucket of the window in progress (R25, R73). -/
  accBg_eq : sintW s.cfg.w s.regs.accBg = bgSum s.cfg (currentWindow s.cfg h.samples)
  /-- The Excitation bucket of the last complete window, 0 before the first (R27, R69). -/
  pubExc_eq : sintW s.cfg.w s.regs.pubExc = excSum s.cfg (lastWindow s.cfg h.samples)
  /-- The Background bucket of the last complete window, 0 before the first (R28, R69). -/
  pubBg_eq : sintW s.cfg.w s.regs.pubBg = bgSum s.cfg (lastWindow s.cfg h.samples)
  /-- `READY` is 1 exactly when a window is unread (R29). -/
  ready_eq : s.regs.ready = decide (0 < h.unread)

end Sys2Proof.Safety
end

