-- ==== Sys2Proof/Certificates/Slice0/Obligations.lean ====
section
/-! DEFINITION. The statements for the provers, from the numbered rules of spec/.  A statement about every state that could
fail only in states no run reaches takes `Safety.Inv` as a premise; `InvariantHoldsAtReset` and `StepKeepsInvariant` are
about that invariant. -/

open Sys2Proof Sys2Proof.Machine Sys2Proof.Safety

/-! ## Configuration and reset -/

/-- R16 and R113: exactly C1 to C6 admit a configuration, and any other is refused before any step. -/
def Obligations.AdmissionIsTheSixConstraints : Prop :=
  (∀ c : Config, c.Admitted ↔
    (1 ≤ c.extraBits ∧ 1 ≤ c.p ∧ 4 ^ c.extraBits % (2 * c.p) = 0 ∧
     (2 ^ c.sw - 1) * 4 ^ c.extraBits ≤ 2 ^ (c.w - 1) - 1 ∧
     (0 ≤ c.excShift ∧ c.excShift ≤ 63 ∧ 0 ≤ c.bgShift ∧ c.bgShift ≤ 63) ∧
     (c.sw + 1 ≤ c.w ∧ c.w ≤ 64))) ∧
  (∀ s : State, ¬ s.cfg.Admitted → ∃ k, step s = .refused (.config k))

/-- R98 on a refused configuration: step and the mark name the first constraint in R16's order that fails. -/
def Obligations.RefusedConfigurationNamesFirstFailure : Prop :=
  ∀ (s : State) (k : Constraint), step s = .refused (.config k) →
    s.cfg.satisfies k = false ∧
    (∃ before after, [Constraint.c1, .c2, .c3, .c4, .c5, .c6] = before ++ k :: after ∧
      ∀ j ∈ before, s.cfg.satisfies j = true) ∧
    (State.resetWith s.cfg).refused = [.configuration k]

/-- R112: the reset value of every register, in every configuration. -/
def Obligations.ResetWritesTheListedValues : Prop :=
  ∀ c : Config,
    (State.resetWith c).regs =
      { exciting := false, pcnt := 0, accExc := 0#64, accBg := 0#64, scnt := 0, pubExc := 0#64, pubBg := 0#64,
        ready := false, modOut := true }

/-- R111: a reset step restores every register, emits and returns nothing, leaves the configuration and the mark, and
leaves the block ready for the next event. -/
def Obligations.ResetStepRestoresEveryRegister : Prop :=
  ∀ (s : State) (rest : List Event), s.cfg.Admitted → s.inputs = .reset :: rest →
    ∃ t, step s = .next t ∧ t.regs = (State.resetWith s.cfg).regs ∧ t.setEvents = [] ∧ t.rsp = none ∧
      t.cfg = s.cfg ∧ t.refused = s.refused ∧ t.inputs = rest ∧
      (∀ e more, rest = e :: more → ∃ u, step t = .next u)

/-- R115: until the `L`-th sample after a reset, `CONSUME` and `PEEK` report `valid = 0` and zeros. -/
def Obligations.MailboxIsEmptyBeforeFirstPublish : Prop :=
  ∀ (c : Config) (es rest : List Event), c.Admitted → (historyOf c es).samples.length < 4 ^ c.extraBits →
    ∃ t, run es.length { State.resetWith c with inputs := es ++ rest } = .next t ∧ t.readyO = false ∧
      (∃ u, exec .consume t = .next u ∧ u.rsp = some (.consume ⟨false, 0#64, 0#64, 0#64, 0#64, 0#64⟩)) ∧
      (∃ u, exec .peek t = .next u ∧ u.rsp = some (.peek ⟨false, 0#64, 0#64, 0#64, 0#64, 0#64⟩))

/-! ## Encoding -/

/-- Words written out from R52, R56 and R60, in the reset state's configuration. -/
def Obligations.TableWordsDecode : Prop :=
  decode Config.workedScenario ⟨.producer, 0b0000000000000000#16, 0#64⟩ = .ok .nop ∧
  decode Config.workedScenario ⟨.producer, 0b0010000000000000#16, 0x64#64⟩ = .ok (.sample 100#64) ∧
  decode Config.workedScenario ⟨.consumer, 0b0100000000000000#16, 0#64⟩ = .ok .poll ∧
  decode Config.workedScenario ⟨.consumer, 0b0110000000000000#16, 0#64⟩ = .ok .consume ∧
  decode Config.workedScenario ⟨.consumer, 0b1000000000000000#16, 0#64⟩ = .ok .peek ∧
  decode Config.workedScenario ⟨.consumer, 0b1010000000000101#16, 0xFFFFFF7E#64⟩ = .ok (.sshr 0xFFFFFF7E#64 5#6)

/-- R56: decoding an encoded command gives it back, with every operand, on every port that carries it. -/
def Obligations.DecodeInvertsEncode : Prop :=
  ∀ (c : Config) (port : Port) (i : Instr), c.Admitted → i.wf c = true → i.carriedBy port = true →
    decode c ⟨port, (encode i).1, (encode i).2⟩ = .ok i

/-- R56: a transaction the decoder accepts is the encoding of its command, on a port that carries it: no word has two
meanings and no reserved bit is dropped. -/
def Obligations.AcceptedTransactionIsAnEncoding : Prop :=
  ∀ (c : Config) (tx : Transaction) (i : Instr), c.Admitted → tx.dw.toNat < 2 ^ c.w → decode c tx = .ok i →
    i.wf c = true ∧ i.carriedBy tx.port = true ∧ encode i = (tx.cw, tx.dw)

/-- R57 and R58, with the fields as numbers: the checks in their order, then the command. -/
def Obligations.DecodeReportsTheFirstFailedCheck : Prop :=
  ∀ (c : Config) (tx : Transaction), c.Admitted →
    let cmd := tx.cw.toNat / 8192
    let rsv := tx.cw.toNat / 64 % 128
    let n := tx.cw.toNat % 64
    let dw := tx.dw.toNat % 2 ^ c.w
    decode c tx =
      if cmd = 6 ∨ cmd = 7 then .error .reservedCmd
      else if rsv ≠ 0 then .error .rsvBits
      else if cmd ≠ 5 ∧ n ≠ 0 then .error .rsvBits
      else if (cmd = 0 ∨ cmd = 2 ∨ cmd = 3 ∨ cmd = 4) ∧ dw ≠ 0 then .error .rsvBits
      else if cmd = 1 ∧ dw / 2 ^ c.sw ≠ 0 then .error .sampleRange
      else if cmd = 1 ∧ tx.port ≠ .producer then .error .wrongPort
      else if (cmd = 2 ∨ cmd = 3 ∨ cmd = 4 ∨ cmd = 5) ∧ tx.port ≠ .consumer then .error .wrongPort
      else if cmd = 0 then .ok .nop
      else if cmd = 1 then .ok (.sample (BitVec.ofNat 64 dw))
      else if cmd = 2 then .ok .poll
      else if cmd = 3 then .ok .consume
      else if cmd = 4 then .ok .peek
      else .ok (.sshr (BitVec.ofNat 64 dw) (BitVec.ofNat 6 n))

/-- R60 and R61: every assembler line in range assembles to transactions that decode to its commands. -/
def Obligations.AssemblerLinesDecodeToTheirCommands : Prop :=
  ∀ (c : Config) (line : AsmLine), c.Admitted → line.inRange c = true →
    (line.assemble c).map (decode c) =
      (match line with
      | .nop => [.ok .nop]
      | .nopP => [.ok .nop]
      | .sample v => [.ok (.sample (BitVec.ofNat 64 v))]
      | .poll => [.ok .poll]
      | .consume => [.ok .consume]
      | .peek => [.ok .peek]
      | .sshr x n => [.ok (.sshr (wrapW c.w x) (BitVec.ofNat 6 n))]
      | .sampleTimes k v => List.replicate k (.ok (.sample (BitVec.ofNat 64 v)))
      | .samples vs => vs.map fun v => .ok (.sample (BitVec.ofNat 64 v))) ∧
    (∀ x n, line = .sshr x n → sintW c.w (wrapW c.w x) = x ∧ (BitVec.ofNat 6 n).toNat = n)

/-! ## Steps and refusals -/

/-- A step runs the command its transaction decodes to, on the state with that transaction taken off. -/
def Obligations.StepRunsTheDecodedCommand : Prop :=
  ∀ (s : State) (tx : Transaction) (rest : List Event) (i : Instr),
    s.cfg.Admitted → s.inputs = .transaction tx :: rest → decode s.cfg tx = .ok i →
    step s = exec i { s with inputs := rest }

/-- R99: a refused transaction writes no register and returns no response; it sets the mark, with the reason, the port and
the words R98 names.  That the record is appended to the records the mark already holds is the model's choice
(notes/assumptions/5.md): the spec fixes no record after the first. -/
def Obligations.RefusedTransactionOnlySetsTheMark : Prop :=
  ∀ (s : State) (tx : Transaction) (rest : List Event) (why : RefusalReason),
    s.cfg.Admitted → s.inputs = .transaction tx :: rest → decode s.cfg tx = .error why →
    step s = .next
      { s with
        inputs := rest
        refused := s.refused ++ [.transaction why { tx with dw := lowBits s.cfg.w tx.dw }]
        rsp := none
        setEvents := [] }

/-- A refused transaction or configuration sets the mark, no step clears it, and nothing else depends on it (R35).  That the
mark is a list which a second refusal makes longer, `s.refused ++ added`, is the model's choice
(notes/assumptions/5.md): R35 says only that it is sticky. -/
def Obligations.MarkIsStickyAndInert : Prop :=
  (∀ c : Config, ¬ c.Admitted → (State.resetWith c).refused ≠ []) ∧
  (∀ s t : State, step s = .next t →
    ∃ added, t.refused = s.refused ++ added ∧
      (∀ tx rest why, s.inputs = .transaction tx :: rest → decode s.cfg tx = .error why → added ≠ []) ∧
      ∀ mark, step { s with refused := mark } = .next { t with refused := mark ++ added })

/-- R36: no step writes the configuration. -/
def Obligations.ConfigurationNeverChanges : Prop :=
  ∀ s t : State, step s = .next t → t.cfg = s.cfg

/-- R19 and R43: a step takes exactly the first event of the order. -/
def Obligations.StepTakesExactlyOneEvent : Prop :=
  ∀ s t : State, step s = .next t → ∃ e, s.inputs = e :: t.inputs

/-- R124: in an admitted configuration the block has a step whenever an event has arrived.  That the model answers a
refusal by the name noEvent while none has is the model's choice (notes/assumptions/4.md). -/
def Obligations.BlockStepsOnEveryEvent : Prop :=
  ∀ s : State, s.cfg.Admitted →
    (s.inputs ≠ [] → ∃ t, step s = .next t) ∧ (s.inputs = [] → step s = .refused .noEvent)

/-- R97: no exception exists, and no command fails once the decoder has accepted it. -/
def Obligations.AcceptedCommandNeverFails : Prop :=
  (∀ (s : State) (f : Fault), step s ≠ .fault f) ∧
  (∀ (c : Config) (tx : Transaction) (i : Instr) (s : State), decode c tx = .ok i → ∃ t, exec i s = .next t)

/-! ## The commands -/

/-- R63: `NOP` on either port reads and writes no register and returns an empty response. -/
def Obligations.NopChangesNothing : Prop :=
  (∀ (c : Config) (port : Port), decode c ⟨port, 0x0000#16, 0#64⟩ = .ok .nop) ∧
  (∀ s : State, exec .nop s = .next { s with rsp := some .nop, setEvents := [] })

/-- R91: `POLL` reports `READY`, on the consumer port only, and writes nothing. -/
def Obligations.PollReportsReady : Prop :=
  (∀ c : Config, decode c ⟨.consumer, 0x4000#16, 0#64⟩ = .ok .poll ∧
    decode c ⟨.producer, 0x4000#16, 0#64⟩ = .error .wrongPort) ∧
  (∀ s : State, exec .poll s = .next { s with rsp := some (.poll s.regs.ready), setEvents := [] })

/-- R92: `CONSUME` reads, scales and clears the mailbox; `PUB_EXC` and `PUB_BG` are kept. -/
def Obligations.ConsumeReadsScalesAndClears : Prop :=
  (∀ c : Config, decode c ⟨.consumer, 0x6000#16, 0#64⟩ = .ok .consume ∧
    decode c ⟨.producer, 0x6000#16, 0#64⟩ = .error .wrongPort) ∧
  (∀ s : State,
    let e := scaleW s.cfg.w s.regs.pubExc s.cfg.excShift.toNat
    let b := scaleW s.cfg.w s.regs.pubBg s.cfg.bgShift.toNat
    exec .consume s = .next
      { s with
        regs := { s.regs with ready := false }
        rsp := some (.consume
          { valid := s.regs.ready, excRaw := s.regs.pubExc, bgRaw := s.regs.pubBg, excScaled := e, bgScaled := b,
            diff := wrapW s.cfg.w (sintW s.cfg.w e - sintW s.cfg.w b) })
        setEvents := [] })

/-- R93: `PEEK` reports the same and writes no register. -/
def Obligations.PeekReportsWithoutClearing : Prop :=
  (∀ c : Config, decode c ⟨.consumer, 0x8000#16, 0#64⟩ = .ok .peek ∧
    decode c ⟨.producer, 0x8000#16, 0#64⟩ = .error .wrongPort) ∧
  (∀ s : State,
    let e := scaleW s.cfg.w s.regs.pubExc s.cfg.excShift.toNat
    let b := scaleW s.cfg.w s.regs.pubBg s.cfg.bgShift.toNat
    exec .peek s = .next
      { s with
        rsp := some (.peek
          { valid := s.regs.ready, excRaw := s.regs.pubExc, bgRaw := s.regs.pubBg, excScaled := e, bgScaled := b,
            diff := wrapW s.cfg.w (sintW s.cfg.w e - sintW s.cfg.w b) })
        setEvents := [] })

/-- R88: `SSHR` returns `scale_W(DW, n)` for every operand and every `n` in `0 .. 63`, and touches no register. -/
def Obligations.SshrScalesAnyOperand : Prop :=
  (∀ (c : Config) (dw : Word) (n : BitVec 6),
    decode c ⟨.consumer, 0xA000#16 + n.setWidth 16, dw⟩ = .ok (.sshr (lowBits c.w dw) n) ∧
    decode c ⟨.producer, 0xA000#16 + n.setWidth 16, dw⟩ = .error .wrongPort) ∧
  (∀ (s : State) (x : Word) (n : BitVec 6),
    exec (.sshr x n) s = .next { s with rsp := some (.sshr (scaleW s.cfg.w x n.toNat)), setEvents := [] }) ∧
  sintW 32 (scaleW 32 0xFFFFFF7E#64 5) = -4

/-- R64: `SAMPLE` is carried by the producer port alone, and this is its whole effect on every state: classify, add, count,
publish at `L`, advance the LO, and re-synchronise it in a step that published. -/
def Obligations.SampleRunsItsSteps : Prop :=
  (∀ (c : Config) (raw : Word), c.Admitted → raw.toNat < 2 ^ c.sw →
    decode c ⟨.producer, 0x2000#16, raw⟩ = .ok (.sample raw) ∧
    decode c ⟨.consumer, 0x2000#16, raw⟩ = .error .wrongPort) ∧
  ∀ (s : State) (raw : Word),
    let c := s.cfg
    let r := s.regs
    let v := raw.toNat % 2 ^ c.sw
    let ae := if r.exciting then wrapW c.w (sintW c.w r.accExc + v) else r.accExc
    let ab := if r.exciting then r.accBg else wrapW c.w (sintW c.w r.accBg + v)
    let pub := decide (r.scnt + 1 = 4 ^ c.extraBits)
    let flip := decide (r.pcnt + 1 = c.p)
    let phase := if flip then !r.exciting else r.exciting
    exec (.sample raw) s = .next
      { s with
        regs :=
          { exciting := phase && !pub
            pcnt := if pub || flip then 0 else r.pcnt + 1
            accExc := if pub then 0#64 else ae
            accBg := if pub then 0#64 else ab
            scnt := if pub then 0 else r.scnt + 1
            pubExc := if pub then ae else r.pubExc
            pubBg := if pub then ab else r.pubBg
            ready := pub || r.ready
            modOut := if pub && phase then false else if flip then phase else r.modOut }
        rsp := some (.sample pub (flip || (pub && phase)) (flip && phase && !pub))
        setEvents := (if flip then [phase] else []) ++ (if pub && phase then [false] else []) }

/-- R66: in a state a run can reach, the sample's value is added, exactly and without a wrap, to the one bucket that
`EXCITING` chose before the LO advance; the other bucket keeps its value.  In a step that publishes, the buckets are the
published pair. -/
def Obligations.SampleGoesToExactlyOneBucket : Prop :=
  ∀ (s : State) (raw : Word), Inv s → raw.toNat < 2 ^ s.cfg.sw →
    ∃ t, exec (.sample raw) s = .next t ∧
      let full := s.regs.scnt + 1 = 4 ^ s.cfg.extraBits
      let exc := if full then t.regs.pubExc else t.regs.accExc
      let bg := if full then t.regs.pubBg else t.regs.accBg
      (s.regs.exciting = false →
        sintW s.cfg.w bg = sintW s.cfg.w s.regs.accBg + raw.toNat ∧ exc = s.regs.accExc) ∧
      (s.regs.exciting = true →
        sintW s.cfg.w exc = sintW s.cfg.w s.regs.accExc + raw.toNat ∧ bg = s.regs.accBg)

/-- R68 and R69: every sample is counted, and exactly the one that makes the count `L` publishes both sums, its own value
included, whatever `READY` was. -/
def Obligations.SampleCountsAndPublishesAtWindowEnd : Prop :=
  ∀ (s : State) (raw : Word),
    ∃ t, exec (.sample raw) s = .next t ∧
      let v := raw.toNat % 2 ^ s.cfg.sw
      (s.regs.scnt + 1 = 4 ^ s.cfg.extraBits →
        t.regs.pubExc = (if s.regs.exciting then wrapW s.cfg.w (sintW s.cfg.w s.regs.accExc + v) else s.regs.accExc) ∧
        t.regs.pubBg = (if s.regs.exciting then s.regs.accBg else wrapW s.cfg.w (sintW s.cfg.w s.regs.accBg + v)) ∧
        t.regs.accExc = 0#64 ∧ t.regs.accBg = 0#64 ∧ t.regs.scnt = 0 ∧ t.regs.ready = true ∧
        ∃ ms ml, t.rsp = some (.sample true ms ml)) ∧
      (s.regs.scnt + 1 ≠ 4 ^ s.cfg.extraBits →
        t.regs.pubExc = s.regs.pubExc ∧ t.regs.pubBg = s.regs.pubBg ∧ t.regs.scnt = s.regs.scnt + 1 ∧
        t.regs.ready = s.regs.ready ∧ ∃ ms ml, t.rsp = some (.sample false ms ml))

/-- R75: in a state a run can reach, every sample advances the LO: at the `P`-th sample the phase toggles, the output is
commanded to it and the count clears; at any other sample only the count moves. -/
def Obligations.LoAdvancesOnEverySample : Prop :=
  ∀ (s : State) (raw : Word), Inv s →
    ∃ t, exec (.sample raw) s = .next t ∧
      (s.regs.pcnt + 1 = s.cfg.p →
        t.regs.exciting = !s.regs.exciting ∧ t.regs.modOut = t.regs.exciting ∧ t.regs.pcnt = 0 ∧
        t.setEvents = [t.regs.modOut] ∧ ∃ pub, t.rsp = some (.sample pub true t.regs.modOut)) ∧
      (s.regs.pcnt + 1 ≠ s.cfg.p →
        t.regs.exciting = s.regs.exciting ∧ t.regs.modOut = s.regs.modOut ∧ t.regs.pcnt = s.regs.pcnt + 1 ∧
        t.setEvents = [] ∧ ∃ pub, t.rsp = some (.sample pub false false))

/-- R77: whatever the LO's state, a sample that publishes leaves it at a window's start, with a set event when that changes
the phase. -/
def Obligations.ResyncForcesTheWindowStart : Prop :=
  ∀ (s : State) (raw : Word), s.regs.scnt + 1 = 4 ^ s.cfg.extraBits →
    ∃ t, exec (.sample raw) s = .next t ∧ t.regs.pcnt = 0 ∧ t.regs.exciting = false ∧
      let flip := decide (s.regs.pcnt + 1 = s.cfg.p)
      let phase := if flip then !s.regs.exciting else s.regs.exciting
      (phase = true →
        t.regs.modOut = false ∧ t.rsp = some (.sample true true false) ∧
        t.setEvents = (if flip then [true] else []) ++ [false]) ∧
      (phase = false →
        t.regs.modOut = (if flip then false else s.regs.modOut) ∧ t.rsp = some (.sample true flip false) ∧
        t.setEvents = if flip then [false] else [])

/-- R78: in every admitted configuration the re-synchronisation writes only values the registers already hold, and emits no
event. -/
def Obligations.ResyncIsANoOp : Prop :=
  ∀ (s : State) (raw : Word), Inv s → s.regs.scnt + 1 = 4 ^ s.cfg.extraBits →
    let counted := countSample (classify s.cfg raw s.regs)
    loResync (loAdvance s.cfg.p (publish counted)) = loAdvance s.cfg.p (publish counted)

/-! ## The scaler -/

/-- R82, with patterns as numbers: a non-negative pattern is divided, a negative one is negated modulo `2^W`, divided and
negated again; a shift by `W` or more gives 0. -/
def Obligations.ScaleIsNegateShiftRenegate : Prop :=
  ∀ (w : Nat) (x : Word) (n : Nat), 1 ≤ w → w ≤ 64 →
    let u := x.toNat % 2 ^ w
    (scaleW w x n).toNat =
        (if u < 2 ^ (w - 1) then u / 2 ^ n else (2 ^ w - (2 ^ w - u) / 2 ^ n) % 2 ^ w) ∧
    (w ≤ n → scaleW w x n = 0#64)

/-- R84: the bit-exact variant is division rounded toward zero, for every operand. -/
def Obligations.ScaleIsTruncatedDivision : Prop :=
  ∀ (w : Nat) (x : Word) (n : Nat), 1 ≤ w → w ≤ 64 → n ≤ 63 →
    sintW w (scaleW w x n) = (sintW w x).tdiv (2 ^ n) ∧ (scaleW w x n).toNat < 2 ^ w

/-- R85: scaling the negation gives the negation, except at the most negative value. -/
def Obligations.ScaleIsSignSymmetric : Prop :=
  ∀ (w : Nat) (x : Word) (n : Nat), 1 ≤ w → w ≤ 64 → n ≤ 63 → sintW w x ≠ -(2 ^ (w - 1) : Int) →
    scaleW w (wrapW w (-sintW w x)) n = wrapW w (-sintW w (scaleW w x n))

/-- R86: the corner cases of the scaler, row by row. -/
def Obligations.ScaleCornerCases : Prop :=
  ∀ (w n : Nat) (x : Word), 1 ≤ w → w ≤ 64 → n ≤ 63 →
    (sintW w x = 0 → sintW w (scaleW w x n) = 0) ∧
    (n = 0 → sintW w (scaleW w x n) = sintW w x) ∧
    (sintW w x = -1 → 1 ≤ n → sintW w (scaleW w x n) = 0) ∧
    (sintW w x = -(2 ^ (w - 1) : Int) → 1 ≤ n → n ≤ w - 1 → sintW w (scaleW w x n) = -(2 ^ (w - 1 - n) : Int)) ∧
    (sintW w x = -(2 ^ (w - 1) : Int) → w ≤ n → sintW w (scaleW w x n) = 0) ∧
    (sintW w x = (2 ^ (w - 1) : Int) - 1 → n = w - 1 → sintW w (scaleW w x n) = 0) ∧
    (w ≤ n → sintW w (scaleW w x n) = 0) ∧
    (sintW w x < 0 → ¬ ((2 ^ n : Int) ∣ sintW w x) → sintW w (scaleW w x n) = sintW w x / 2 ^ n + 1)

/-- R89: the scaled pair and its difference, as `PEEK` reports them, in a state a run can reach: both levels are the
scaler's, are divided exactly as integers and stay in `0 .. (2^SW - 1) * L / 2`, and the difference does not wrap. -/
def Obligations.ScaledPairAndDifferenceAreExact : Prop :=
  ∀ s : State, Inv s →
    let bound : Int := (2 ^ s.cfg.sw - 1) * 4 ^ s.cfg.extraBits / 2
    ∃ t m, exec .peek s = .next t ∧ t.rsp = some (.peek m) ∧
      m.excScaled = scaleW s.cfg.w s.regs.pubExc s.cfg.excShift.toNat ∧
      m.bgScaled = scaleW s.cfg.w s.regs.pubBg s.cfg.bgShift.toNat ∧
      (0 ≤ sintW s.cfg.w m.excScaled ∧ sintW s.cfg.w m.excScaled ≤ bound) ∧
      (0 ≤ sintW s.cfg.w m.bgScaled ∧ sintW s.cfg.w m.bgScaled ≤ bound) ∧
      sintW s.cfg.w m.excScaled = sintW s.cfg.w s.regs.pubExc / 2 ^ s.cfg.excShift.toNat ∧
      sintW s.cfg.w m.bgScaled = sintW s.cfg.w s.regs.pubBg / 2 ^ s.cfg.bgShift.toNat ∧
      sintW s.cfg.w m.diff = sintW s.cfg.w m.excScaled - sintW s.cfg.w m.bgScaled

/-! ## Frames and writers -/

/-- `NOP`, `POLL`, `PEEK` and `SSHR` leave every register, the configuration, the mark and the events alone, and emit no set
event (R31, R42, R87). -/
def Obligations.ReadOnlyCommandsKeepEveryRegister : Prop :=
  ∀ (i : Instr) (s t : State), (i = .nop ∨ i = .poll ∨ i = .peek ∨ ∃ x n, i = .sshr x n) → exec i s = .next t →
    t.regs = s.regs ∧ t.cfg = s.cfg ∧ t.refused = s.refused ∧ t.inputs = s.inputs ∧ t.setEvents = []

/-- `CONSUME` changes `READY` and no other register; with `READY = 0` it changes none (R92, R94). -/
def Obligations.ConsumeChangesOnlyReady : Prop :=
  ∀ s t : State, exec .consume s = .next t →
    t.regs.exciting = s.regs.exciting ∧ t.regs.pcnt = s.regs.pcnt ∧ t.regs.accExc = s.regs.accExc ∧
    t.regs.accBg = s.regs.accBg ∧ t.regs.scnt = s.regs.scnt ∧ t.regs.pubExc = s.regs.pubExc ∧
    t.regs.pubBg = s.regs.pubBg ∧ t.regs.modOut = s.regs.modOut ∧
    t.cfg = s.cfg ∧ t.refused = s.refused ∧ t.inputs = s.inputs ∧ t.setEvents = [] ∧
    (s.regs.ready = false → t.regs = s.regs)

/-- What `SAMPLE` leaves alone: the mailbox unless it publishes, the bucket of the other phase unless it publishes, the
phase and the output unless the LO flips or the step publishes, and never the configuration, the mark or the events. -/
def Obligations.SampleFrame : Prop :=
  ∀ (raw : Word) (s t : State), exec (.sample raw) s = .next t →
    t.cfg = s.cfg ∧ t.refused = s.refused ∧ t.inputs = s.inputs ∧
    (s.regs.scnt + 1 ≠ 4 ^ s.cfg.extraBits →
      t.regs.pubExc = s.regs.pubExc ∧ t.regs.pubBg = s.regs.pubBg ∧ t.regs.ready = s.regs.ready ∧
      (s.regs.exciting = true → t.regs.accBg = s.regs.accBg) ∧
      (s.regs.exciting = false → t.regs.accExc = s.regs.accExc) ∧
      (s.regs.pcnt + 1 ≠ s.cfg.p →
        t.regs.exciting = s.regs.exciting ∧ t.regs.modOut = s.regs.modOut ∧ t.setEvents = []))

/-- R102: `ready_o` rises in the step of a publish, falls in the step of a `CONSUME` or of a reset, and no other step moves
it. -/
def Obligations.ReadyRisesAndFallsOnlyAsListed : Prop :=
  ∀ s t : State, step s = .next t →
    ((∃ ms ml, t.rsp = some (.sample true ms ml)) → t.readyO = true) ∧
    ((∃ m, t.rsp = some (.consume m)) → t.readyO = false) ∧
    (s.inputs.head? = some .reset → t.readyO = false) ∧
    (t.readyO ≠ s.readyO →
      (∃ ms ml, t.rsp = some (.sample true ms ml)) ∨ (∃ m, t.rsp = some (.consume m)) ∨
      s.inputs.head? = some .reset)

/-- R27 and R28: only a publish writes the published pair, apart from reset. -/
def Obligations.OnlyPublishWritesThePublishedPair : Prop :=
  ∀ s t : State, step s = .next t → (t.regs.pubExc ≠ s.regs.pubExc ∨ t.regs.pubBg ≠ s.regs.pubBg) →
    (∃ ms ml, t.rsp = some (.sample true ms ml)) ∨ s.inputs.head? = some .reset

/-- R76: `mod_out` moves, apart from reset, only in a step that emits a set event, and that step's response reports it with
the level commanded. -/
def Obligations.OutputIsCommandedOnlyBySetEvents : Prop :=
  ∀ s t : State, step s = .next t →
    (s.inputs.head? = some .reset → t.modOutLevel = true ∧ t.setEvents = []) ∧
    (s.inputs.head? ≠ some .reset → t.setEvents = [] →
      t.modOutLevel = s.modOutLevel ∧ ∀ pub ml, t.rsp ≠ some (.sample pub true ml)) ∧
    (t.setEvents ≠ [] →
      (∃ pub, t.rsp = some (.sample pub true t.modOutLevel)) ∧ t.setEvents.getLast? = some t.modOutLevel)

/-- R44: a publish overwrites both published registers and sets `READY`, whatever they held: nothing of an unread window
is left. -/
def Obligations.PublishLeavesNothingOfTheOldWindow : Prop :=
  ∀ (s : State) (raw pe pb : Word) (rdy : Bool), s.regs.scnt + 1 = 4 ^ s.cfg.extraBits →
    ∃ t, exec (.sample raw) s = .next t ∧
      exec (.sample raw) { s with regs := { s.regs with pubExc := pe, pubBg := pb, ready := rdy } } = .next t

/-- R33: what the consumer port's responses show depends on the mailbox alone, never on the LO, the counters or the
accumulators. -/
def Obligations.ConsumerSeesOnlyTheMailbox : Prop :=
  ∀ (s₁ s₂ : State) (i : Instr), (∀ raw, i ≠ .sample raw) → s₁.cfg = s₂.cfg →
    s₁.regs.pubExc = s₂.regs.pubExc → s₁.regs.pubBg = s₂.regs.pubBg → s₁.regs.ready = s₂.regs.ready →
    ∃ t₁ t₂, exec i s₁ = .next t₁ ∧ exec i s₂ = .next t₂ ∧ t₁.rsp = t₂.rsp ∧ t₁.setEvents = t₂.setEvents

/-- R95: `PEEK` after `PEEK` returns the same report, and `PEEK` right after `CONSUME` the same with `valid = 0`. -/
def Obligations.PeekIsRepeatable : Prop :=
  ∀ s : State,
    (∃ t u m, exec .peek s = .next t ∧ exec .peek t = .next u ∧ t.rsp = some (.peek m) ∧ u.rsp = some (.peek m)) ∧
    (∃ t u m, exec .consume s = .next t ∧ exec .peek t = .next u ∧ t.rsp = some (.consume m) ∧
      u.rsp = some (.peek { m with valid := false }))

/-! ## The invariant -/

/-- The invariant of R34 holds right after reset, in every admitted configuration. -/
def Obligations.InvariantHoldsAtReset : Prop :=
  Inv State.reset ∧ ∀ c : Config, c.Admitted → Inv (State.resetWith c)

/-- The invariant of R34 is kept by every step: every command, every refused transaction and every reset. -/
def Obligations.StepKeepsInvariant : Prop :=
  ∀ s t : State, Inv s → step s = .next t → Inv t

/-- R34 items 6 and 7: every sum is in `0 .. (2^SW - 1) * L / 2`, read as a signed value. -/
def Obligations.InvariantBoundsEverySum : Prop :=
  ∀ s : State, Inv s →
    let bound : Int := (2 ^ s.cfg.sw - 1) * 4 ^ s.cfg.extraBits / 2
    (0 ≤ sintW s.cfg.w s.regs.accExc ∧ sintW s.cfg.w s.regs.accExc ≤ bound) ∧
    (0 ≤ sintW s.cfg.w s.regs.accBg ∧ sintW s.cfg.w s.regs.accBg ≤ bound) ∧
    (0 ≤ sintW s.cfg.w s.regs.pubExc ∧ sintW s.cfg.w s.regs.pubExc ≤ bound) ∧
    (0 ≤ sintW s.cfg.w s.regs.pubBg ∧ sintW s.cfg.w s.regs.pubBg ≤ bound)

/-- R73: of a window's `L` samples exactly `L / 2` fall in each phase. -/
def Obligations.WindowSplitsEvenly : Prop :=
  ∀ c : Config, c.Admitted →
    ((List.range (4 ^ c.extraBits)).filter fun j => j / c.p % 2 == 1).length = 4 ^ c.extraBits / 2 ∧
    ((List.range (4 ^ c.extraBits)).filter fun j => j / c.p % 2 == 0).length = 4 ^ c.extraBits / 2

/-! ## Runs: every interleaving of the ports, of any length, resets and refused transactions included -/

/-- R34: every run from reset, over any events, reaches only states with all seven items, the sums being those of the
samples of the window in progress. -/
def Obligations.RunsReachOnlyStatesOfR34 : Prop :=
  ∀ (c : Config) (es rest : List Event), c.Admitted →
    ∃ t, run es.length { State.resetWith c with inputs := es ++ rest } = .next t ∧ t.cfg = c ∧ t.inputs = rest ∧
      let vs := (historyOf c es).samples
      let ws := currentWindow c vs
      let k := t.regs.scnt
      let bound : Int := (2 ^ c.sw - 1) * 4 ^ c.extraBits / 2
      k ≤ 4 ^ c.extraBits - 1 ∧ k = ws.length ∧
      t.regs.pcnt = k % c.p ∧
      (t.regs.exciting = true ↔ k / c.p % 2 = 1) ∧
      (vs.length < c.p → t.regs.modOut = true) ∧ (c.p ≤ vs.length → t.regs.modOut = t.regs.exciting) ∧
      sintW c.w t.regs.accExc = excSum c ws ∧ sintW c.w t.regs.accBg = bgSum c ws ∧
      sintW c.w t.regs.accExc ≤ bound ∧ sintW c.w t.regs.accBg ≤ bound ∧
      (0 ≤ sintW c.w t.regs.pubExc ∧ sintW c.w t.regs.pubExc ≤ bound) ∧
      (0 ≤ sintW c.w t.regs.pubBg ∧ sintW c.w t.regs.pubBg ≤ bound)

/-- R69 over runs: the mailbox holds the bucket sums of the last complete window since the reset, zeros before it. -/
def Obligations.MailboxHoldsTheLastWindow : Prop :=
  ∀ (c : Config) (es rest : List Event), c.Admitted →
    ∃ t, run es.length { State.resetWith c with inputs := es ++ rest } = .next t ∧
      let vs := (historyOf c es).samples
      (vs.length / 4 ^ c.extraBits = 0 → t.regs.pubExc = 0#64 ∧ t.regs.pubBg = 0#64) ∧
      (∀ m, vs.length / 4 ^ c.extraBits = m + 1 →
        sintW c.w t.regs.pubExc = excSum c (window c vs m) ∧ sintW c.w t.regs.pubBg = bgSum c (window c vs m))

/-- R29 over runs: `READY` is 1 exactly when a window was published after the last `CONSUME` and the last reset. -/
def Obligations.ReadyMeansAnUnreadWindow : Prop :=
  ∀ (c : Config) (es rest : List Event), c.Admitted →
    ∃ t, run es.length { State.resetWith c with inputs := es ++ rest } = .next t ∧
      (t.readyO = true ↔ 0 < (historyOf c es).unread)

/-- R45: a consumer that keeps up is told of every window, once each and in order. -/
def Obligations.KeepingUpReportsEachWindowOnce : Prop :=
  ∀ (c : Config) (es rest : List Event), c.Admitted → Event.reset ∉ es → KeepsUp c es →
    let h := historyOf c es
    (validReportsOver es.length { State.resetWith c with inputs := es ++ rest }).map
        (fun m => (sintW c.w m.excRaw, sintW c.w m.bgRaw)) =
      (List.range (h.samples.length / 4 ^ c.extraBits - h.unread)).map
        (fun k => ((excSum c (window c h.samples k) : Int), (bgSum c (window c h.samples k) : Int)))

/-- R79: since a reset the LO flips exactly once every `P` samples whatever `L` is, the set events alternate, high first, and
the phase after `n` samples, which classifies sample `n + 1`, is Excitation exactly when `floor(n / P)` is odd. -/
def Obligations.LoFlipsOnceEveryHalfCycle : Prop :=
  ∀ (c : Config) (es rest : List Event), c.Admitted → Event.reset ∉ es →
    let s := { State.resetWith c with inputs := es ++ rest }
    let n := (historyOf c es).samples.length
    setEventsOver es.length s = ((List.range (n / c.p)).map fun i => i % 2 == 0) ∧
    ∃ t, run es.length s = .next t ∧ (t.regs.exciting = true ↔ n / c.p % 2 = 1)

/-- R80: the first flip after reset does not move the pin and every later flip does. -/
def Obligations.FirstFlipDoesNotMoveThePin : Prop :=
  ∀ (c : Config) (es rest : List Event), c.Admitted → Event.reset ∉ es →
    let s := { State.resetWith c with inputs := es ++ rest }
    let flips := (historyOf c es).samples.length / c.p
    (setEventsOver es.length s).length = flips ∧ pinTransitions es.length s = flips - 1

/-- R44: the consumer cannot disturb the producer: two runs whose samples since their last resets are the same, whatever
else they interleave, agree on every register but `READY`. -/
def Obligations.ConsumerCannotDisturbTheProducer : Prop :=
  ∀ (c : Config) (es₁ es₂ : List Event), c.Admitted → (historyOf c es₁).samples = (historyOf c es₂).samples →
    ∃ t₁ t₂, run es₁.length { State.resetWith c with inputs := es₁ } = .next t₁ ∧
      run es₂.length { State.resetWith c with inputs := es₂ } = .next t₂ ∧
      { t₁.regs with ready := t₂.regs.ready } = t₂.regs

/-- R123: from any state a run can reach, `READY` is 1 once the producer has delivered the rest of the window and no
`CONSUME` or reset came; until then it does not move. -/
def Obligations.DeliveredWindowRaisesReady : Prop :=
  ∀ (s : State) (es rest : List Event), Inv s → Event.reset ∉ es →
    (∀ tx, Event.transaction tx ∈ es → decode s.cfg tx ≠ .ok .consume) →
    let m := (historyOf s.cfg es).samples.length
    ∃ t, run es.length { s with inputs := es ++ rest } = .next t ∧ t.inputs = rest ∧
      (4 ^ s.cfg.extraBits - s.regs.scnt ≤ m → t.readyO = true) ∧
      (m < 4 ^ s.cfg.extraBits - s.regs.scnt → t.readyO = s.readyO)

/-- R74: a window of a constant input publishes `v * L / 2` in both registers, exactly. -/
def Obligations.ConstantInputFillsBothBuckets : Prop :=
  ∀ (s : State) (v : Nat) (rest : List Event), Inv s → s.regs.scnt = 0 → v < 2 ^ s.cfg.sw →
    ∃ t, run (4 ^ s.cfg.extraBits)
        { s with inputs := List.replicate (4 ^ s.cfg.extraBits) (.transaction (sampleLine v)) ++ rest } = .next t ∧
      2 * sintW s.cfg.w t.regs.pubExc = v * 4 ^ s.cfg.extraBits ∧
      2 * sintW s.cfg.w t.regs.pubBg = v * 4 ^ s.cfg.extraBits ∧
      t.readyO = true ∧ t.inputs = rest

/-- R90: with the default shifts a constant input scales to `v * 2^(k-1)` and `v * 2^k`, so equal light gives
`-v * 2^(k-1)`; with equal shifts it gives 0. -/
def Obligations.ConstantInputGains : Prop :=
  ∀ (s : State) (v : Nat), s.cfg.Admitted → v < 2 ^ s.cfg.sw →
    2 * s.regs.pubExc.toNat = v * 4 ^ s.cfg.extraBits → s.regs.pubBg = s.regs.pubExc →
    ∃ t m, exec .peek s = .next t ∧ t.rsp = some (.peek m) ∧
      (s.cfg.excShift = s.cfg.extraBits → s.cfg.bgShift = (s.cfg.extraBits : Int) - 1 →
        sintW s.cfg.w m.excScaled = v * 2 ^ (s.cfg.extraBits - 1) ∧
        sintW s.cfg.w m.bgScaled = v * 2 ^ s.cfg.extraBits ∧
        sintW s.cfg.w m.diff = -(v * 2 ^ (s.cfg.extraBits - 1) : Int)) ∧
      (s.cfg.bgShift = s.cfg.excShift → sintW s.cfg.w m.diff = 0)

/-! ## A state and its history, one step at a time -/

/-- A reset leaves the state of the empty history, in every admitted configuration and whatever is still to come. -/
def Obligations.ResetFollowsTheEmptyHistory : Prop :=
  ∀ (c : Config) (es : List Event), c.Admitted → Follows History.start { State.resetWith c with inputs := es }

/-- The step lemma behind the statements about runs (R29, R34, R69, R73): a state that a history leaves steps, on any event,
to one that the history with the event's mark leaves.  It holds from every such state, not only on a run from reset. -/
def Obligations.StepFollowsItsHistory : Prop :=
  ∀ (h : History) (s : State) (e : Event) (rest : List Event), Follows h s → s.inputs = e :: rest →
    ∃ t, step s = .next t ∧ t.inputs = rest ∧ t.cfg = s.cfg ∧ Follows (h.event s.cfg e) t

/-- The step lemma behind R79 and R80: in a state that a history leaves, an accepted sample flips the phase and emits one
set event, with the new phase, exactly when it is a `P`-th one since the reset, and the flip moves the pin exactly when a
flip came before it. -/
def Obligations.SampleFlipsByTheSampleCount : Prop :=
  ∀ (h : History) (s : State) (tx : Transaction) (raw : Word) (rest : List Event), Follows h s →
    s.inputs = .transaction tx :: rest → decode s.cfg tx = .ok (.sample raw) →
    let n := h.samples.length + 1
    ∃ t, step s = .next t ∧
      (n % s.cfg.p = 0 →
        t.regs.exciting = !s.regs.exciting ∧ t.setEvents = [t.regs.exciting] ∧
        (t.modOutLevel = s.modOutLevel ↔ n = s.cfg.p)) ∧
      (n % s.cfg.p ≠ 0 →
        t.regs.exciting = s.regs.exciting ∧ t.setEvents = [] ∧ t.modOutLevel = s.modOutLevel)
end

