-- ==== Sys2Proof/Laws/Operands.lean ====
section
/-! SUPPORT. What the functions on `W`-bit patterns give as numbers (spec/00_scope.md R17). -/

namespace Sys2Proof.Machine

variable {w : Nat}

theorem pow_le_word (hw : w ≤ 64) : 2 ^ w ≤ 2 ^ 64 := Nat.pow_le_pow_right (by decide) hw

theorem two_mul_half (hw : 1 ≤ w) : 2 * 2 ^ (w - 1) = 2 ^ w := by
  obtain ⟨k, rfl⟩ := Nat.exists_eq_add_of_le hw
  simp [Nat.pow_add]

theorem lowBits_toNat (hw : w ≤ 64) (p : Word) : (lowBits w p).toNat = p.toNat % 2 ^ w := by
  have := pow_le_word hw
  have := Nat.mod_lt p.toNat (Nat.two_pow_pos w)
  simp only [lowBits, BitVec.toNat_ofNat]
  exact Nat.mod_eq_of_lt (by omega)

theorem lowBits_of_lt {p : Word} (h : p.toNat < 2 ^ w) : lowBits w p = p := by
  apply BitVec.eq_of_toNat_eq
  simp only [lowBits, BitVec.toNat_ofNat, Nat.mod_eq_of_lt h]
  exact Nat.mod_eq_of_lt p.isLt

theorem uintW_lt (w : Nat) (p : Word) : uintW w p < 2 ^ w := Nat.mod_lt _ (Nat.two_pow_pos w)

theorem uintW_of_lt {p : Word} (h : p.toNat < 2 ^ w) : uintW w p = p.toNat := Nat.mod_eq_of_lt h

theorem wrapW_toNat (hw : w ≤ 64) (v : Int) : (wrapW w v).toNat = (v % (2 ^ w : Nat)).toNat := by
  have h64 := pow_le_word hw
  have hpos : (0 : Int) < (2 ^ w : Nat) := by exact_mod_cast Nat.two_pow_pos w
  have h1 := Int.emod_lt_of_pos v hpos
  have h0 := Int.emod_nonneg v (by omega : ((2 ^ w : Nat) : Int) ≠ 0)
  simp only [wrapW, BitVec.toNat_ofNat]
  exact Nat.mod_eq_of_lt (by omega)

/-- A wrapped value is a `W`-bit pattern. -/
theorem wrapW_lt (hw : w ≤ 64) (v : Int) : (wrapW w v).toNat < 2 ^ w := by
  have hpos : (0 : Int) < (2 ^ w : Nat) := by exact_mod_cast Nat.two_pow_pos w
  have h1 := Int.emod_lt_of_pos v hpos
  have h0 := Int.emod_nonneg v (by omega : ((2 ^ w : Nat) : Int) ≠ 0)
  rw [wrapW_toNat hw]
  omega

theorem uintW_wrapW (hw : w ≤ 64) (v : Int) : (uintW w (wrapW w v) : Int) = v % (2 ^ w : Nat) := by
  have hpos : (0 : Int) < (2 ^ w : Nat) := by exact_mod_cast Nat.two_pow_pos w
  have h0 := Int.emod_nonneg v (by omega : ((2 ^ w : Nat) : Int) ≠ 0)
  rw [uintW_of_lt (wrapW_lt hw v), wrapW_toNat hw]
  omega

theorem wrapW_toNat_of_lt (hw : w ≤ 64) {n : Nat} (h : n < 2 ^ w) : (wrapW w (n : Int)).toNat = n := by
  rw [wrapW_toNat hw, ← Int.natCast_mod, Int.toNat_natCast, Nat.mod_eq_of_lt h]

/-- A value in the signed range survives the wrap. -/
theorem sintW_wrapW (h1 : 1 ≤ w) (hw : w ≤ 64) {v : Int}
    (hlo : -((2 ^ (w - 1) : Nat) : Int) ≤ v) (hhi : v < (2 ^ (w - 1) : Nat)) : sintW w (wrapW w v) = v := by
  have hh := two_mul_half h1
  have hu := uintW_wrapW hw v
  rcases Int.lt_or_le v 0 with hneg | hpos
  · have hm : v % (2 ^ w : Nat) = v + (2 ^ w : Nat) := by
      rw [← Int.add_emod_right, Int.emod_eq_of_lt (by omega) (by omega)]
    rw [hm] at hu
    simp only [sintW]
    split <;> omega
  · rw [Int.emod_eq_of_lt hpos (by omega)] at hu
    simp only [sintW]
    split <;> omega

/-- A pattern below half the range reads the same as signed and as unsigned (R27). -/
theorem sintW_of_lt_half (h1 : 1 ≤ w) {p : Word} (h : p.toNat < 2 ^ (w - 1)) : sintW w p = p.toNat := by
  have hh := two_mul_half h1
  have hu : uintW w p = p.toNat := uintW_of_lt (by omega)
  simp only [sintW, hu, if_pos h]

theorem sintW_range (h1 : 1 ≤ w) (p : Word) :
    -((2 ^ (w - 1) : Nat) : Int) ≤ sintW w p ∧ sintW w p < (2 ^ (w - 1) : Nat) := by
  have hh := two_mul_half h1
  have hu := uintW_lt w p
  simp only [sintW]
  split <;> omega

/-- The sign bit says which reading applies (R82's first line). -/
theorem signBit_eq (h1 : 1 ≤ w) (p : Word) : signBit w p = true ↔ 2 ^ (w - 1) ≤ uintW w p := by
  have hp := Nat.two_pow_pos (w - 1)
  have hlt := Nat.mod_lt p.toNat hp
  have hu : uintW w p = p.toNat % 2 ^ (w - 1) + 2 ^ (w - 1) * (p.toNat / 2 ^ (w - 1) % 2) := by
    rw [uintW, ← two_mul_half h1, Nat.mul_comm 2, Nat.mod_mul]
  rw [hu, signBit, BitVec.getLsbD, Nat.testBit_eq_decide_div_mod_eq, decide_eq_true_eq]
  rcases Nat.mod_two_eq_zero_or_one (p.toNat / 2 ^ (w - 1)) with h | h <;> rw [h] <;> omega

theorem sampleValue_lt (c : Config) (raw : Word) : sampleValue c raw < 2 ^ c.sw := Nat.mod_lt _ (Nat.two_pow_pos _)

theorem sampleValue_of_lt {c : Config} {raw : Word} (h : raw.toNat < 2 ^ c.sw) : sampleValue c raw = raw.toNat :=
  Nat.mod_eq_of_lt h

theorem shiftAmount_lt (n : BitVec 6) : shiftAmount n < 64 := n.isLt

end Sys2Proof.Machine
end

