-- ==== Sys2Proof/Laws/Admission.lean ====
section
/-! SUPPORT. What an admitted configuration gives a proof (spec/00_scope.md R16). -/

namespace Sys2Proof.Config

variable {c : Config}

/-- Every constraint of an admitted configuration holds. -/
theorem satisfies_of_admitted (h : c.Admitted) (k : Constraint) : c.satisfies k = true := by
  unfold Admitted firstFailure at h
  rw [List.find?_eq_none] at h
  have := h k (by cases k <;> decide)
  simpa using this

theorem windowLength_pos (c : Config) : 0 < c.windowLength := Nat.pow_pos (by decide)

theorem p_pos (h : c.Admitted) : 0 < c.p := by
  have := satisfies_of_admitted h .c2
  simp only [satisfies, decide_eq_true_eq] at this
  omega

/-- C3: a window holds a whole number of LO periods. -/
theorem period_dvd (h : c.Admitted) : 2 * c.p ∣ c.windowLength := by
  have := satisfies_of_admitted h .c3
  simp only [satisfies, beq_iff_eq] at this
  exact Nat.dvd_of_mod_eq_zero this

theorem half_period_dvd (h : c.Admitted) : c.p ∣ c.windowLength :=
  Nat.dvd_trans (Nat.dvd_mul_left c.p 2) (period_dvd h)

/-- C6 bounds the width from above. -/
theorem w_le (h : c.Admitted) : c.w ≤ 64 := by
  have := satisfies_of_admitted h .c6
  simp only [satisfies, Bool.and_eq_true, decide_eq_true_eq] at this
  exact this.2

theorem sw_lt_w (h : c.Admitted) : c.sw < c.w := by
  have := satisfies_of_admitted h .c6
  simp only [satisfies, Bool.and_eq_true, decide_eq_true_eq] at this
  omega

theorem w_pos (h : c.Admitted) : 1 ≤ c.w := by
  have := sw_lt_w h
  omega

/-- C4: a window's largest sum is a non-negative signed value. -/
theorem window_sum_lt (h : c.Admitted) : (2 ^ c.sw - 1) * c.windowLength < 2 ^ (c.w - 1) := by
  have := satisfies_of_admitted h .c4
  have := Nat.two_pow_pos (c.w - 1)
  simp only [satisfies, Bool.and_eq_true, decide_eq_true_eq] at *
  omega

/-- C5: the configured shifts are amounts in `0 .. 63`. -/
theorem shifts_range (h : c.Admitted) : 0 ≤ c.excShift ∧ c.excShift ≤ 63 ∧ 0 ≤ c.bgShift ∧ c.bgShift ≤ 63 := by
  have := satisfies_of_admitted h .c5
  simp only [satisfies, Bool.and_eq_true, decide_eq_true_eq] at this
  omega

end Sys2Proof.Config
end

