-- ==== Sys2Proof/Laws/Decode.lean ====
section
/-! SUPPORT. What the decoder's fields and answers say (spec/30_encoding.md R52, R57, R58). -/

namespace Sys2Proof

open Sys2Proof.Machine

theorem cmdField_toNat (cw : CmdWord) : (cmdField cw).toNat = cw.toNat / 8192 := by
  have := cw.isLt
  simp only [cmdField, BitVec.extractLsb'_toNat, Nat.shiftRight_eq_div_pow]
  omega

theorem rsvField_toNat (cw : CmdWord) : (rsvField cw).toNat = cw.toNat / 64 % 128 := by
  simp only [rsvField, BitVec.extractLsb'_toNat, Nat.shiftRight_eq_div_pow]

theorem nField_toNat (cw : CmdWord) : (nField cw).toNat = cw.toNat % 64 := by
  simp [nField]

/-- The fields make up the command word (R52). -/
theorem cw_eq_of_fields {cw : CmdWord} : cw.toNat = (cmdField cw).toNat * 8192 + (rsvField cw).toNat * 64 + (nField cw).toNat := by
  rw [cmdField_toNat, rsvField_toNat, nField_toNat]
  omega

/-- Everything an accepted transaction satisfies. -/
theorem decode_ok {c : Config} {tx : Transaction} {i : Instr} (h : decode c tx = .ok i) :
    ∃ op, commandOf (cmdField tx.cw) = some op ∧ rsvField tx.cw = 0#7 ∧ (op ≠ .sshr → nField tx.cw = 0#6) ∧
      (op.noData = true → lowBits c.w tx.dw = 0#64) ∧ (op = .sample → bitsFrom c.sw (lowBits c.w tx.dw) = 0) ∧
      (op = .sample → tx.port = .producer) ∧ (op.consumerOnly = true → tx.port = .consumer) ∧
      i = op.instr tx.cw (lowBits c.w tx.dw) := by
  simp only [decode] at h
  split at h
  · cases h
  · rename_i op hop
    refine ⟨op, hop, ?_⟩
    split at h; · cases h
    split at h; · cases h
    split at h; · cases h
    split at h; · cases h
    split at h; · cases h
    split at h; · cases h
    simp_all

/-- A configuration refusal is never the decoder's. -/
theorem decode_ne_config (c : Config) (tx : Transaction) : decode c tx ≠ .error .config := by
  simp only [decode]
  split
  · simp
  · repeat' split
    all_goals simp

/-- The decoder looks at the wires only: `DW` has `W` bits (R51). -/
theorem decode_onWires {c : Config} (hw : c.w ≤ 64) (tx : Transaction) : decode c (onWires c tx) = decode c tx := by
  have h : lowBits c.w (lowBits c.w tx.dw) = lowBits c.w tx.dw :=
    lowBits_of_lt (by rw [lowBits_toNat hw]; exact Nat.mod_lt _ (Nat.two_pow_pos _))
  simp only [decode, onWires, h]

end Sys2Proof
end

