-- ==== Sys2Proof/Laws/State.lean ====
section
/-! SUPPORT. One lemma per field per update of State and of Regs, and the fields of the reset state. -/

namespace Sys2Proof.Machine

section RegsUpdates
variable (r : Regs) (b : Bool)

@[simp] theorem Regs.setReady_exciting : r.setReady.exciting = r.exciting := rfl
@[simp] theorem Regs.setReady_pcnt : r.setReady.pcnt = r.pcnt := rfl
@[simp] theorem Regs.setReady_accExc : r.setReady.accExc = r.accExc := rfl
@[simp] theorem Regs.setReady_accBg : r.setReady.accBg = r.accBg := rfl
@[simp] theorem Regs.setReady_scnt : r.setReady.scnt = r.scnt := rfl
@[simp] theorem Regs.setReady_pubExc : r.setReady.pubExc = r.pubExc := rfl
@[simp] theorem Regs.setReady_pubBg : r.setReady.pubBg = r.pubBg := rfl
@[simp] theorem Regs.setReady_ready : r.setReady.ready = true := rfl
@[simp] theorem Regs.setReady_modOut : r.setReady.modOut = r.modOut := rfl

@[simp] theorem Regs.clearReady_exciting : r.clearReady.exciting = r.exciting := rfl
@[simp] theorem Regs.clearReady_pcnt : r.clearReady.pcnt = r.pcnt := rfl
@[simp] theorem Regs.clearReady_accExc : r.clearReady.accExc = r.accExc := rfl
@[simp] theorem Regs.clearReady_accBg : r.clearReady.accBg = r.accBg := rfl
@[simp] theorem Regs.clearReady_scnt : r.clearReady.scnt = r.scnt := rfl
@[simp] theorem Regs.clearReady_pubExc : r.clearReady.pubExc = r.pubExc := rfl
@[simp] theorem Regs.clearReady_pubBg : r.clearReady.pubBg = r.pubBg := rfl
@[simp] theorem Regs.clearReady_ready : r.clearReady.ready = false := rfl
@[simp] theorem Regs.clearReady_modOut : r.clearReady.modOut = r.modOut := rfl

@[simp] theorem Regs.enterPhase_exciting : (r.enterPhase b).exciting = b := rfl
@[simp] theorem Regs.enterPhase_pcnt : (r.enterPhase b).pcnt = r.pcnt := rfl
@[simp] theorem Regs.enterPhase_accExc : (r.enterPhase b).accExc = r.accExc := rfl
@[simp] theorem Regs.enterPhase_accBg : (r.enterPhase b).accBg = r.accBg := rfl
@[simp] theorem Regs.enterPhase_scnt : (r.enterPhase b).scnt = r.scnt := rfl
@[simp] theorem Regs.enterPhase_pubExc : (r.enterPhase b).pubExc = r.pubExc := rfl
@[simp] theorem Regs.enterPhase_pubBg : (r.enterPhase b).pubBg = r.pubBg := rfl
@[simp] theorem Regs.enterPhase_ready : (r.enterPhase b).ready = r.ready := rfl
@[simp] theorem Regs.enterPhase_modOut : (r.enterPhase b).modOut = b := rfl

end RegsUpdates

section StateUpdates
variable (s : State) (r : Regs) (evs : List Bool) (p : Response) (why : RefusalReason) (tx : Transaction)

@[simp] theorem State.answer_cfg : (s.answer r evs p).cfg = s.cfg := rfl
@[simp] theorem State.answer_regs : (s.answer r evs p).regs = r := rfl
@[simp] theorem State.answer_refused : (s.answer r evs p).refused = s.refused := rfl
@[simp] theorem State.answer_inputs : (s.answer r evs p).inputs = s.inputs := rfl
@[simp] theorem State.answer_rsp : (s.answer r evs p).rsp = some p := rfl
@[simp] theorem State.answer_setEvents : (s.answer r evs p).setEvents = evs := rfl

@[simp] theorem State.respond_cfg : (s.respond p).cfg = s.cfg := rfl
@[simp] theorem State.respond_regs : (s.respond p).regs = s.regs := rfl
@[simp] theorem State.respond_refused : (s.respond p).refused = s.refused := rfl
@[simp] theorem State.respond_inputs : (s.respond p).inputs = s.inputs := rfl
@[simp] theorem State.respond_rsp : (s.respond p).rsp = some p := rfl
@[simp] theorem State.respond_setEvents : (s.respond p).setEvents = [] := rfl

@[simp] theorem State.refuse_cfg : (s.refuse why tx).cfg = s.cfg := rfl
@[simp] theorem State.refuse_regs : (s.refuse why tx).regs = s.regs := rfl
@[simp] theorem State.refuse_refused : (s.refuse why tx).refused = s.refused ++ [.transaction why tx] := rfl
@[simp] theorem State.refuse_inputs : (s.refuse why tx).inputs = s.inputs := rfl
@[simp] theorem State.refuse_rsp : (s.refuse why tx).rsp = none := rfl
@[simp] theorem State.refuse_setEvents : (s.refuse why tx).setEvents = [] := rfl

@[simp] theorem State.takeReset_cfg : s.takeReset.cfg = s.cfg := rfl
@[simp] theorem State.takeReset_regs : s.takeReset.regs = Regs.reset := rfl
@[simp] theorem State.takeReset_refused : s.takeReset.refused = s.refused := rfl
@[simp] theorem State.takeReset_inputs : s.takeReset.inputs = s.inputs := rfl
@[simp] theorem State.takeReset_rsp : s.takeReset.rsp = none := rfl
@[simp] theorem State.takeReset_setEvents : s.takeReset.setEvents = [] := rfl

@[simp] theorem State.arriving_cfg : (s.arriving tx).cfg = s.cfg := rfl
@[simp] theorem State.arriving_regs : (s.arriving tx).regs = s.regs := rfl
@[simp] theorem State.arriving_refused : (s.arriving tx).refused = s.refused := rfl
@[simp] theorem State.arriving_inputs : (s.arriving tx).inputs = .transaction tx :: s.inputs := rfl
@[simp] theorem State.arriving_rsp : (s.arriving tx).rsp = s.rsp := rfl
@[simp] theorem State.arriving_setEvents : (s.arriving tx).setEvents = s.setEvents := rfl

@[simp] theorem State.readyO_eq : s.readyO = s.regs.ready := rfl
@[simp] theorem State.modOutLevel_eq : s.modOutLevel = s.regs.modOut := rfl

end StateUpdates

section ResetState
variable (c : Config)

@[simp] theorem State.resetWith_cfg : (State.resetWith c).cfg = c := rfl
@[simp] theorem State.resetWith_regs : (State.resetWith c).regs = Regs.reset := rfl
@[simp] theorem State.resetWith_inputs : (State.resetWith c).inputs = [] := rfl
@[simp] theorem State.resetWith_rsp : (State.resetWith c).rsp = none := rfl
@[simp] theorem State.resetWith_setEvents : (State.resetWith c).setEvents = [] := rfl

theorem State.resetWith_refused (h : c.Admitted) : (State.resetWith c).refused = [] := by
  unfold Config.Admitted at h
  simp [State.resetWith, configMark, h]

@[simp] theorem Regs.reset_exciting : Regs.reset.exciting = false := rfl
@[simp] theorem Regs.reset_pcnt : Regs.reset.pcnt = 0 := rfl
@[simp] theorem Regs.reset_accExc : Regs.reset.accExc = 0#64 := rfl
@[simp] theorem Regs.reset_accBg : Regs.reset.accBg = 0#64 := rfl
@[simp] theorem Regs.reset_scnt : Regs.reset.scnt = 0 := rfl
@[simp] theorem Regs.reset_pubExc : Regs.reset.pubExc = 0#64 := rfl
@[simp] theorem Regs.reset_pubBg : Regs.reset.pubBg = 0#64 := rfl
@[simp] theorem Regs.reset_ready : Regs.reset.ready = false := rfl
@[simp] theorem Regs.reset_modOut : Regs.reset.modOut = true := rfl

end ResetState

end Sys2Proof.Machine
end

