-- ==== Sys2Proof/Laws/Engine.lean ====
section
/-! SUPPORT. What each sub-step of `SAMPLE` does, once (spec/40_engine.md R66 to R70; spec/41_lo_generator.md R75, R77). -/

namespace Sys2Proof.Machine

variable {c : Config} {r : Regs} {raw : Word} {p : Nat}

theorem classify_excitation (h : r.exciting = true) :
    classify c raw r = { r with accExc := accumulate c.w r.accExc (sampleValue c raw) } := by
  simp [classify, h]

theorem classify_background (h : r.exciting = false) :
    classify c raw r = { r with accBg := accumulate c.w r.accBg (sampleValue c raw) } := by
  simp [classify, h]

@[simp] theorem classify_exciting : (classify c raw r).exciting = r.exciting := by unfold classify; split <;> rfl
@[simp] theorem classify_pcnt : (classify c raw r).pcnt = r.pcnt := by unfold classify; split <;> rfl
@[simp] theorem classify_scnt : (classify c raw r).scnt = r.scnt := by unfold classify; split <;> rfl
@[simp] theorem classify_pubExc : (classify c raw r).pubExc = r.pubExc := by unfold classify; split <;> rfl
@[simp] theorem classify_pubBg : (classify c raw r).pubBg = r.pubBg := by unfold classify; split <;> rfl
@[simp] theorem classify_ready : (classify c raw r).ready = r.ready := by unfold classify; split <;> rfl
@[simp] theorem classify_modOut : (classify c raw r).modOut = r.modOut := by unfold classify; split <;> rfl

@[simp] theorem countSample_scnt : (countSample r).scnt = r.scnt + 1 := rfl
@[simp] theorem countSample_exciting : (countSample r).exciting = r.exciting := rfl
@[simp] theorem countSample_pcnt : (countSample r).pcnt = r.pcnt := rfl
@[simp] theorem countSample_accExc : (countSample r).accExc = r.accExc := rfl
@[simp] theorem countSample_accBg : (countSample r).accBg = r.accBg := rfl
@[simp] theorem countSample_pubExc : (countSample r).pubExc = r.pubExc := rfl
@[simp] theorem countSample_pubBg : (countSample r).pubBg = r.pubBg := rfl
@[simp] theorem countSample_ready : (countSample r).ready = r.ready := rfl
@[simp] theorem countSample_modOut : (countSample r).modOut = r.modOut := rfl

@[simp] theorem publish_scnt : (publish r).scnt = 0 := rfl
@[simp] theorem publish_exciting : (publish r).exciting = r.exciting := rfl
@[simp] theorem publish_pcnt : (publish r).pcnt = r.pcnt := rfl
@[simp] theorem publish_accExc : (publish r).accExc = 0#64 := rfl
@[simp] theorem publish_accBg : (publish r).accBg = 0#64 := rfl
@[simp] theorem publish_pubExc : (publish r).pubExc = r.accExc := rfl
@[simp] theorem publish_pubBg : (publish r).pubBg = r.accBg := rfl
@[simp] theorem publish_ready : (publish r).ready = true := rfl
@[simp] theorem publish_modOut : (publish r).modOut = r.modOut := rfl

/-- An add does not wrap while the sum is a non-negative signed value (R67). -/
theorem accumulate_toNat {w : Nat} {acc : Word} {v : Nat} (h1 : 1 ≤ w) (hw : w ≤ 64)
    (h : acc.toNat + v < 2 ^ (w - 1)) : (accumulate w acc v).toNat = acc.toNat + v := by
  have hh := two_mul_half h1
  rw [accumulate, sintW_of_lt_half h1 (by omega)]
  exact_mod_cast wrapW_toNat_of_lt hw (n := acc.toNat + v) (by omega)

/-- The advance at the end of a half-cycle. -/
theorem loAdvance_flip (h : r.pcnt + 1 = p) :
    loAdvance p r =
      { regs := { r with exciting := !r.exciting, modOut := !r.exciting, pcnt := 0 }
        setEvents := [!r.exciting], modSet := true, modLevel := !r.exciting } := by
  simp [loAdvance, h, Regs.enterPhase]

/-- The advance inside a half-cycle. -/
theorem loAdvance_count (h : r.pcnt + 1 ≠ p) :
    loAdvance p r =
      { regs := { r with pcnt := r.pcnt + 1 }, setEvents := [], modSet := false, modLevel := false } := by
  simp [loAdvance, h]

theorem loResync_background {a : LoResult} (h : a.regs.exciting = false) :
    loResync a = { a with regs := { a.regs with pcnt := 0 } } := by
  simp [loResync, h]

theorem loResync_excitation {a : LoResult} (h : a.regs.exciting = true) :
    loResync a =
      { regs := { a.regs with exciting := false, modOut := false, pcnt := 0 }
        setEvents := a.setEvents ++ [false], modSet := true, modLevel := false } := by
  simp [loResync, h, Regs.enterPhase]

theorem closeSample_inside (h : r.scnt ≠ c.windowLength) : closeSample c r = loAdvance c.p r := by
  simp [closeSample, windowFull, h]

theorem closeSample_boundary (h : r.scnt = c.windowLength) :
    closeSample c r = loResync (loAdvance c.p (publish r)) := by
  simp [closeSample, windowFull, h]

/-- The LO sub-steps touch only the LO's registers. -/
theorem loAdvance_keeps :
    (loAdvance p r).regs.accExc = r.accExc ∧ (loAdvance p r).regs.accBg = r.accBg ∧
    (loAdvance p r).regs.scnt = r.scnt ∧ (loAdvance p r).regs.pubExc = r.pubExc ∧
    (loAdvance p r).regs.pubBg = r.pubBg ∧ (loAdvance p r).regs.ready = r.ready := by
  unfold loAdvance
  split <;> simp

theorem loResync_keeps (a : LoResult) :
    (loResync a).regs.accExc = a.regs.accExc ∧ (loResync a).regs.accBg = a.regs.accBg ∧
    (loResync a).regs.scnt = a.regs.scnt ∧ (loResync a).regs.pubExc = a.regs.pubExc ∧
    (loResync a).regs.pubBg = a.regs.pubBg ∧ (loResync a).regs.ready = a.regs.ready := by
  unfold loResync
  split <;> simp

end Sys2Proof.Machine
end

