-- ==== Sys2Proof/Laws/PerInstr.lean ====
section
/-! SUPPORT. Families of lemmas with one lemma for each constructor of `Instr`. -/

namespace Sys2Proof.Laws

namespace TableRow

/-- The opcode table's `match` of a command (spec/opcode_table.json, R56). -/
def matchBits : Instr → CmdWord
  | .nop => 0x0000#16
  | .sample _ => 0x2000#16
  | .poll => 0x4000#16
  | .consume => 0x6000#16
  | .peek => 0x8000#16
  | .sshr _ _ => 0xA000#16

/-- The opcode table's `mask` of a command. -/
def maskBits : Instr → CmdWord
  | .nop => 0xFFFF#16
  | .sample _ => 0xFFFF#16
  | .poll => 0xFFFF#16
  | .consume => 0xFFFF#16
  | .peek => 0xFFFF#16
  | .sshr _ _ => 0xFFC0#16

/-- The encoder's command word is the table's row under the row's mask (R56), and its `RSV` field is zero (R57). -/
def Statement (i : Instr) : Prop := encodeCw i &&& maskBits i = matchBits i ∧ rsvField (encodeCw i) = 0#7

theorem nop : Statement .nop := ⟨by decide, by decide⟩
theorem sample (raw : Word) : Statement (.sample raw) :=
  show 0x2000#16 &&& 0xFFFF#16 = 0x2000#16 ∧ rsvField 0x2000#16 = 0#7 from ⟨by decide, by decide⟩
theorem poll : Statement .poll := ⟨by decide, by decide⟩
theorem consume : Statement .consume := ⟨by decide, by decide⟩
theorem peek : Statement .peek := ⟨by decide, by decide⟩
theorem sshr (x : Word) (n : BitVec 6) : Statement (.sshr x n) := by
  have h : ∀ n : BitVec 6, (0xA000#16 + n.setWidth 16) &&& 0xFFC0#16 = 0xA000#16 ∧
      rsvField (0xA000#16 + n.setWidth 16) = 0#7 := by decide
  exact h n

end TableRow

end Sys2Proof.Laws
end

