-- ==== Sys2Proof/Laws/Safety.lean ====
section
/-! SUPPORT. The small lemmas of runs, histories, bucket sums and bucket counts (Sys2Proof/Safety.lean). -/

namespace Sys2Proof.Safety

open Sys2Proof.Machine

variable {c : Config} {s t : State} {k : Nat}

/-! ## Runs, one step at a time -/

@[simp] theorem run_zero : run 0 s = .next s := rfl

theorem run_succ (h : step s = .next t) : run (k + 1) s = run k t := by
  simp only [run, Host.Core.run]
  rw [show core.step s = .next t from h]

theorem statesOver_succ (h : step s = .next t) : statesOver (k + 1) s = t :: statesOver k t := by
  simp [statesOver, h]

theorem setEventsOver_succ (h : step s = .next t) : setEventsOver (k + 1) s = t.setEvents ++ setEventsOver k t := by
  simp [setEventsOver, statesOver_succ h]

theorem validReportsOver_succ (h : step s = .next t) :
    validReportsOver (k + 1) s = (validConsume t).toList ++ validReportsOver k t := by
  simp only [validReportsOver, statesOver_succ h, List.filterMap_cons]
  cases hv : validConsume t
  all_goals simp only [Option.toList, List.nil_append, List.cons_append]

theorem pinTransitions_succ (h : step s = .next t) :
    pinTransitions (k + 1) s = (if t.modOutLevel = s.modOutLevel then 0 else 1) + pinTransitions k t := by
  simp only [pinTransitions, h]

/-! ## Histories, one event at a time -/

@[simp] theorem historyOf_nil : historyOf c [] = History.start := rfl

theorem historyOf_snoc (es : List Event) (e : Event) : historyOf c (es ++ [e]) = (historyOf c es).event c e := by
  simp [historyOf]

@[simp] theorem event_reset (h : History) : h.event c .reset = History.start := rfl

theorem event_accepted {h : History} {tx : Transaction} {i : Instr} (hd : decode c tx = .ok i) :
    h.event c (.transaction tx) = h.command c i := by
  simp [History.event, hd]

theorem event_refused {h : History} {tx : Transaction} {why : RefusalReason} (hd : decode c tx = .error why) :
    h.event c (.transaction tx) = h := by
  simp [History.event, hd]

/-! ## Bucket sums and counts, one sample at a time -/

@[simp] theorem excSum_nil : excSum c [] = 0 := rfl
@[simp] theorem bgSum_nil : bgSum c [] = 0 := rfl

theorem excSum_snoc (ws : List Nat) (v : Nat) :
    excSum c (ws ++ [v]) = excSum c ws + if ws.length / c.p % 2 = 1 then v else 0 := by
  unfold excSum
  rw [List.zipIdx_append]
  by_cases h : ws.length / c.p % 2 = 1 <;> simp [h, List.filter_append]

theorem bgSum_snoc (ws : List Nat) (v : Nat) :
    bgSum c (ws ++ [v]) = bgSum c ws + if ws.length / c.p % 2 = 0 then v else 0 := by
  unfold bgSum
  rw [List.zipIdx_append]
  by_cases h : ws.length / c.p % 2 = 0 <;> simp [h, List.filter_append]

/-- Every sample falls in exactly one bucket. -/
theorem excCount_add_bgCount (p k : Nat) : excCount p k + bgCount p k = k := by
  induction k with
  | zero => rfl
  | succ k ih =>
    simp only [excCount, bgCount]
    omega

theorem excCount_le_of_le (p : Nat) {a b : Nat} (h : a ≤ b) : excCount p a ≤ excCount p b := by
  induction b, h using Nat.le_induction with
  | base => exact Nat.le_refl _
  | succ k _ ih => exact Nat.le_trans ih (Nat.le_add_right _ _)

theorem bgCount_le_of_le (p : Nat) {a b : Nat} (h : a ≤ b) : bgCount p a ≤ bgCount p b := by
  induction b, h using Nat.le_induction with
  | base => exact Nat.le_refl _
  | succ k _ ih => exact Nat.le_trans ih (Nat.le_add_right _ _)

/-! ## The windows of a history, one sample at a time -/

theorem length_currentWindow (vs : List Nat) : (currentWindow c vs).length = vs.length % c.windowLength := by
  have := Nat.div_add_mod' vs.length c.windowLength
  simp only [currentWindow, List.length_drop]
  omega

theorem currentWindow_mem {vs : List Nat} {v : Nat} (h : v ∈ currentWindow c vs) : v ∈ vs := List.mem_of_mem_drop h

theorem currentWindow_snoc_inside {vs : List Nat} (v : Nat) (h : (vs.length + 1) % c.windowLength ≠ 0) :
    currentWindow c (vs ++ [v]) = currentWindow c vs ++ [v] := by
  have hd : (vs.length + 1) / c.windowLength = vs.length / c.windowLength :=
    Nat.succ_div_of_not_dvd fun hdvd => h (Nat.mod_eq_zero_of_dvd hdvd)
  simp only [currentWindow, List.length_append, List.length_singleton, hd]
  exact List.drop_append_of_le_length (Nat.div_mul_le_self _ _)

theorem currentWindow_snoc_boundary {vs : List Nat} (v : Nat) (h : (vs.length + 1) % c.windowLength = 0) :
    currentWindow c (vs ++ [v]) = [] := by
  apply List.eq_nil_of_length_eq_zero
  simpa [length_currentWindow] using h

theorem lastWindow_snoc_inside {vs : List Nat} (v : Nat) (h : (vs.length + 1) % c.windowLength ≠ 0) :
    lastWindow c (vs ++ [v]) = lastWindow c vs := by
  have hd : (vs.length + 1) / c.windowLength = vs.length / c.windowLength :=
    Nat.succ_div_of_not_dvd fun hdvd => h (Nat.mod_eq_zero_of_dvd hdvd)
  simp only [lastWindow, List.length_append, List.length_singleton, hd]
  cases hm : vs.length / c.windowLength with
  | zero => rfl
  | succ m =>
    have hle : (m + 1) * c.windowLength ≤ vs.length := hm ▸ Nat.div_mul_le_self _ _
    rw [Nat.add_mul, Nat.one_mul] at hle
    simp only [window]
    rw [List.drop_append_of_le_length (by omega), List.take_append_of_le_length (by simp only [List.length_drop]; omega)]

theorem lastWindow_snoc_boundary {vs : List Nat} (v : Nat) (h : (vs.length + 1) % c.windowLength = 0) :
    lastWindow c (vs ++ [v]) = currentWindow c vs ++ [v] := by
  have hd : (vs.length + 1) / c.windowLength = vs.length / c.windowLength + 1 :=
    Nat.succ_div_of_dvd (Nat.dvd_of_mod_eq_zero h)
  have hlen := Nat.div_add_mod' (vs.length + 1) c.windowLength
  rw [h, hd, Nat.add_mul, Nat.one_mul] at hlen
  simp only [lastWindow, List.length_append, List.length_singleton, hd, window, currentWindow]
  rw [List.drop_append_of_le_length (Nat.div_mul_le_self _ _)]
  apply List.take_of_length_le
  simp only [List.length_append, List.length_drop, List.length_singleton]
  have := Nat.div_mul_le_self vs.length c.windowLength
  omega

/-- The two buckets share a window's samples between them, so neither exceeds their bound. -/
theorem bucket_sums_le (B : Nat) (ws : List Nat) (h : ∀ v ∈ ws, v ≤ B) :
    excSum c ws + bgSum c ws ≤ B * ws.length := by
  induction ws using List.reverseRecOn with
  | nil => simp
  | append_singleton ws v ih =>
    have ih := ih fun u hu => h u (List.mem_append_left _ hu)
    have hv := h v (by simp)
    rw [excSum_snoc, bgSum_snoc, List.length_append, List.length_singleton, Nat.mul_add, Nat.mul_one]
    rcases Nat.mod_two_eq_zero_or_one (ws.length / c.p) with hp | hp <;> simp [hp] <;> omega

end Sys2Proof.Safety
end

