-- ==== Sys2Proof/Laws/Scaler.lean ====
section
/-! SUPPORT. The two cases of the scaler, and that its value is a `W`-bit pattern (spec/42_scaler.md R82). -/

namespace Sys2Proof.Machine

variable {w : Nat} {x : Word} {n : Nat}

/-- The case of a non-negative pattern. -/
theorem scaleW_nonneg (h1 : 1 ≤ w) (h : uintW w x < 2 ^ (w - 1)) : scaleW w x n = wrapW w (uintW w x / 2 ^ n : Nat) := by
  have hs : ¬ signBit w x = true := by rw [signBit_eq h1]; omega
  rw [scaleW, if_neg hs, Nat.shiftRight_eq_div_pow]

/-- The case of a negative pattern: its magnitude is `2^W - u`. -/
theorem scaleW_neg (h1 : 1 ≤ w) (hw : w ≤ 64) (h : 2 ^ (w - 1) ≤ uintW w x) :
    scaleW w x n = wrapW w (0 - ((2 ^ w - uintW w x) / 2 ^ n : Nat)) := by
  have hlt := uintW_lt w x
  have hh := two_mul_half h1
  have hsint : sintW w x = (uintW w x : Int) - (2 ^ w : Nat) := by rw [sintW, if_neg (by omega)]
  have hm : uintW w (wrapW w (0 - sintW w x)) = 2 ^ w - uintW w x := by
    have := uintW_wrapW hw (0 - sintW w x)
    rw [hsint, Int.emod_eq_of_lt (by omega) (by omega)] at this
    rw [hsint]
    omega
  rw [scaleW, if_pos ((signBit_eq h1 x).2 h), hm, Nat.shiftRight_eq_div_pow]

/-- The scaler's value is a `W`-bit pattern. -/
theorem scaleW_lt (hw : w ≤ 64) : (scaleW w x n).toNat < 2 ^ w := by
  unfold scaleW
  split <;> exact wrapW_lt hw _

end Sys2Proof.Machine
end

