-- ==== Sys2Proof/Laws/Step.lean ====
section
/-! SUPPORT. Everything one step can do, once (spec/00_scope.md R19; spec/60_exceptions.md R99). -/

namespace Sys2Proof.Machine

/-- A step that answers a next state took exactly one event, in an admitted configuration: a reset, a refused
transaction, or an accepted command. -/
theorem step_cases {s t : State} (h : step s = .next t) :
    s.cfg.Admitted ∧
    ((∃ rest, s.inputs = .reset :: rest ∧ t = State.takeReset { s with inputs := rest }) ∨
     (∃ tx rest why, s.inputs = .transaction tx :: rest ∧ decode s.cfg tx = .error why ∧
        t = State.refuse why (onWires s.cfg tx) { s with inputs := rest }) ∨
     (∃ tx rest i, s.inputs = .transaction tx :: rest ∧ decode s.cfg tx = .ok i ∧
        exec i { s with inputs := rest } = .next t)) := by
  unfold step nextAction at h
  unfold Config.Admitted
  split at h
  case h_1 h' =>
    split at h'
    · cases h
    · split at h' <;> cases h
  case h_2 s' h' =>
    split at h'
    · cases h'
    · rename_i hc
      split at h'
      · cases h'
      · rename_i rest hi
        cases h'
        cases h
        exact ⟨hc, .inl ⟨rest, hi, rfl⟩⟩
      · split at h' <;> cases h'
  case h_3 why tx s' h' =>
    split at h'
    · cases h'
    · rename_i hc
      split at h'
      · cases h'
      · cases h'
      · rename_i tx' rest hi
        split at h' <;> cases h'
        rename_i hd
        cases h
        exact ⟨hc, .inr (.inl ⟨tx', rest, why, hi, hd, rfl⟩)⟩
  case h_4 i s' h' =>
    split at h'
    · cases h'
    · rename_i hc
      split at h'
      · cases h'
      · cases h'
      · rename_i tx' rest hi
        split at h' <;> cases h'
        rename_i hd
        exact ⟨hc, .inr (.inr ⟨tx', rest, i, hi, hd, h⟩)⟩

/-- The action of a step, from the head of the events. -/
theorem nextAction_reset {s : State} {rest : List Event} (hc : s.cfg.Admitted) (hi : s.inputs = .reset :: rest) :
    nextAction s = .reset { s with inputs := rest } := by
  unfold Config.Admitted at hc
  simp [nextAction, hc, hi]

theorem nextAction_transaction {s : State} {rest : List Event} {tx : Transaction} (hc : s.cfg.Admitted)
    (hi : s.inputs = .transaction tx :: rest) :
    nextAction s =
      match decode s.cfg tx with
      | .error why => .refuse why (onWires s.cfg tx) { s with inputs := rest }
      | .ok i => .run i { s with inputs := rest } := by
  unfold Config.Admitted at hc
  cases hd : decode s.cfg tx <;> simp [nextAction, hc, hi, hd]

end Sys2Proof.Machine
end

