-- ==== Sys2Proof/Tests/Slice0.lean ====
section
/-! SUPPORT. Tests: well-formedness smoke, words written out from spec/30_encoding.md R52, R56 and R60, single steps from the
vectors of spec/95_test_vectors.md, and for each statement a state and operands that meet its hypotheses.  Every expected
value is the spec's (the vector or the rule named beside it), none the model's own answer. -/

namespace Sys2Proof.Tests

open Sys2Proof.Machine Sys2Proof.Safety

/-! ## Configurations and states of spec/95_test_vectors.md -/

/-- Configuration K1. -/
def k1 : Config := Config.withDefaults 1 2

/-- A K1 state with the given registers. -/
def k1State (r : Regs) : State := { State.resetWith k1 with regs := r }

/-- V-S1 after `sample 10`. -/
def afterSample10 : Regs := { Regs.reset with pcnt := 1, accBg := 10#64, scnt := 1 }

/-- V-S1 after `sample 20`. -/
def afterSample20 : Regs := { Regs.reset with exciting := true, accBg := 30#64, scnt := 2 }

/-- V-S1 after `sample 30`: the next sample ends the window. -/
def afterSample30 : Regs := { Regs.reset with exciting := true, pcnt := 1, accExc := 30#64, accBg := 30#64, scnt := 3 }

/-- V-S1 after `sample 40`. -/
def afterSample40 : Regs := { Regs.reset with pubExc := 70#64, pubBg := 30#64, ready := true, modOut := false }

/-- The event of a producer sample. -/
def sampleEvent (v : Nat) : Event := .transaction (sampleLine v)

/-- The event of a command on the port that carries it. -/
def commandEvent (i : Instr) : Event := .transaction (encodeOn .consumer i)

/-- What one step on an event shows: the registers, the response and the set events. -/
def shown (r : Regs) (e : Event) : Option (Regs × Option Response × List Bool) :=
  match step { k1State r with inputs := [e] } with
  | .next t => some (t.regs, t.rsp, t.setEvents)
  | .fault _ => none
  | .refused _ => none

/-- The state one step on an event leaves. -/
def nextOf (r : Regs) (e : Event) : Option State :=
  match step { k1State r with inputs := [e] } with
  | .next t => some t
  | .fault _ => none
  | .refused _ => none

/-! ## Well-formedness: one ill-formed term for each check -/

theorem test_sample_above_range_is_ill_formed : (Instr.sample 1024#64).wf k1 = false := by decide
theorem test_sample_at_range_end_is_well_formed : (Instr.sample 1023#64).wf k1 = true := by decide
theorem test_sshr_operand_above_width_is_ill_formed : (Instr.sshr 0x100000000#64 0#6).wf k1 = false := by decide
theorem test_sample_is_not_on_the_consumer_port : (Instr.sample 5#64).carriedBy .consumer = false := by decide
theorem test_poll_is_not_on_the_producer_port : Instr.poll.carriedBy .producer = false := by decide
theorem test_consume_is_not_on_the_producer_port : Instr.consume.carriedBy .producer = false := by decide
theorem test_peek_is_not_on_the_producer_port : Instr.peek.carriedBy .producer = false := by decide
theorem test_sshr_is_not_on_the_producer_port : (Instr.sshr 0#64 0#6).carriedBy .producer = false := by decide
theorem test_nop_is_on_both_ports : Instr.nop.carriedBy .producer = true ∧ Instr.nop.carriedBy .consumer = true := by decide

/-! ## Decoding: words written out bit by bit, CMD RSV N (R52, R56), and the refusals of vector section 5 -/

/-- The decoder's answer in K1. -/
def decoded (port : Port) (cw : CmdWord) (dw : Word) : Option Instr := (decode k1 ⟨port, cw, dw⟩).toOption

/-- The decoder's refusal in K1, by R98's code. -/
def refusedWith (port : Port) (cw : CmdWord) (dw : Word) : Option Nat :=
  match decode k1 ⟨port, cw, dw⟩ with
  | .ok _ => none
  | .error why => some why.code

theorem test_decode_nop_consumer : decoded .consumer 0b000_0000000_000000#16 0#64 = some .nop := by decide
theorem test_decode_nop_producer : decoded .producer 0b000_0000000_000000#16 0#64 = some .nop := by decide
theorem test_decode_sample : decoded .producer 0b001_0000000_000000#16 100#64 = some (.sample 100#64) := by decide
theorem test_decode_poll : decoded .consumer 0b010_0000000_000000#16 0#64 = some .poll := by decide
theorem test_decode_consume : decoded .consumer 0b011_0000000_000000#16 0#64 = some .consume := by decide
theorem test_decode_peek : decoded .consumer 0b100_0000000_000000#16 0#64 = some .peek := by decide
theorem test_decode_sshr : decoded .consumer 0b101_0000000_000101#16 0xFFFFFF7E#64 = some (.sshr 0xFFFFFF7E#64 5#6) := by
  decide
theorem test_decode_sshr_largest_shift : decoded .consumer 0xA03F#16 0x64#64 = some (.sshr 100#64 63#6) := by decide

theorem test_refuse_reserved_cmd_first : refusedWith .producer 0xC001#16 5#64 = some 1 := by decide
theorem test_refuse_cmd_111 : refusedWith .consumer 0xE000#16 0#64 = some 1 := by decide
theorem test_refuse_rsv_bit_on_sample : refusedWith .producer 0x2040#16 0#64 = some 2 := by decide
theorem test_refuse_rsv_bits_on_sshr : refusedWith .consumer 0xBFFF#16 0#64 = some 2 := by decide
theorem test_refuse_n_on_nop : refusedWith .consumer 0x0001#16 0#64 = some 2 := by decide
theorem test_refuse_dw_on_peek : refusedWith .consumer 0x8000#16 0x80000000#64 = some 2 := by decide
theorem test_refuse_sample_1024 : refusedWith .producer 0x2000#16 0x400#64 = some 3 := by decide
theorem test_accept_sample_1023 : refusedWith .producer 0x2000#16 0x3FF#64 = none := by decide
theorem test_refuse_sample_on_consumer : refusedWith .consumer 0x2000#16 5#64 = some 4 := by decide
theorem test_refuse_sshr_on_producer : refusedWith .producer 0xA005#16 0x82#64 = some 4 := by decide

/-- The opcode table's numbering: `A005:FFFFFF7E` as one 48-bit number, and rows given 16 bits. -/
theorem test_table_word_sshr : decodeTableWord 48 0xFFFFFF7EA005 = some (.sshr 0xFFFFFF7E#64 5#6) := by decide
theorem test_table_word_sample : decodeTableWord 16 0x2000 = some (.sample 0#64) := by decide
theorem test_table_word_reserved : decodeTableWord 16 0xC000 = none := by decide

/-- R60's column of words for `sshr -130, 5`, and R61's expansion of `sample*3 7`. -/
theorem test_assemble_sshr : (AsmLine.sshr (-130) 5).assemble k1 = [⟨.consumer, 0xA005#16, 0xFFFFFF7E#64⟩] := by decide
theorem test_assemble_sample_times :
    (AsmLine.sampleTimes 3 7).assemble k1 =
      [⟨.producer, 0x2000#16, 7#64⟩, ⟨.producer, 0x2000#16, 7#64⟩, ⟨.producer, 0x2000#16, 7#64⟩] := by decide

/-! ## The configuration check: vectors V-C1 to V-C12 -/

theorem test_config_refusals :
    (Config.withDefaults 0 1).firstFailure = some .c1 ∧ (Config.withDefaults 1 0).firstFailure = some .c2 ∧
    (Config.withDefaults 1 4).firstFailure = some .c3 ∧ (Config.withDefaults 2 3).firstFailure = some .c3 ∧
    (Config.withDefaults 11 1).firstFailure = some .c4 ∧ (Config.withDefaults 6 4096).firstFailure = some .c3 ∧
    { k1 with excShift := 64 }.firstFailure = some .c5 ∧ { k1 with w := 65 }.firstFailure = some .c6 ∧
    { k1 with w := 10 }.firstFailure = some .c4 := by decide

theorem test_config_admissions :
    (Config.withDefaults 10 1).Admitted ∧ (Config.withDefaults 6 2048).Admitted ∧ { k1 with w := 16 }.Admitted ∧
    k1.Admitted ∧ Config.workedScenario.Admitted := by decide

/-! ## Single steps: V-S1, V-S2, V-S3, section 3, section 4 and P7 -/

/-- R63: a `NOP` on the producer port is not a sample. -/
theorem test_nop_keeps_counters :
    shown afterSample10 (.transaction (encodeOn .producer .nop)) = some (afterSample10, some .nop, []) := by decide

/-- V-S1, second row: classified by the phase before the flip, which commands high. -/
theorem test_sample_flips_after_classifying :
    shown afterSample10 (sampleEvent 20) = some (afterSample20, some (.sample false true true), [true]) := by decide

/-- V-S1, fourth row: the `L`-th sample is in the published sum. -/
theorem test_sample_publishes_with_its_own_value :
    shown afterSample30 (sampleEvent 40) = some (afterSample40, some (.sample true true false), [false]) := by decide

/-- Section 4: `POLL` after a publish. -/
theorem test_poll_reads_ready :
    shown afterSample40 (commandEvent .poll) = some (afterSample40, some (.poll true), []) := by decide

/-- P1: `CONSUME` after the first window. -/
theorem test_consume_clears_ready :
    shown afterSample40 (commandEvent .consume) =
      some ({ afterSample40 with ready := false }, some (.consume ⟨true, 70#64, 30#64, 35#64, 30#64, 5#64⟩), []) := by
  decide

/-- V-S3: equal light, `diff = -1023`. -/
theorem test_consume_negative_difference :
    (shown { afterSample40 with pubExc := 2046#64, pubBg := 2046#64 } (commandEvent .consume)).map (fun x => x.2.1) =
      some (some (.consume ⟨true, 2046#64, 2046#64, 1023#64, 2046#64, 0xFFFFFC01#64⟩)) := by decide

/-- P7: `PEEK` after the first window leaves `READY`. -/
theorem test_peek_keeps_ready :
    shown afterSample40 (commandEvent .peek) =
      some (afterSample40, some (.peek ⟨true, 70#64, 30#64, 35#64, 30#64, 5#64⟩), []) := by decide

/-- E2: `sshr -130, 5` is -4, not -5. -/
theorem test_sshr_rounds_toward_zero :
    shown afterSample40 (commandEvent (.sshr 0xFFFFFF7E#64 5#6)) =
      some (afterSample40, some (.sshr 0xFFFFFFFC#64), []) := by decide

/-- Section 3: the most negative value by 31, by 32 and by 0. -/
theorem test_sshr_most_negative :
    scaleW 32 0x80000000#64 31 = 0xFFFFFFFF#64 ∧ scaleW 32 0x80000000#64 32 = 0#64 ∧
    scaleW 32 0x80000000#64 0 = 0x80000000#64 := by decide

/-- Section 5's refused row: no register moves and the mark is set with the reason and the words. -/
theorem test_refused_transaction_leaves_its_record :
    (nextOf afterSample10 (sampleEvent 1024)).map (fun t => (t.regs, t.rsp, t.refused)) =
      some (afterSample10, none, [.transaction .sampleRange ⟨.producer, 0x2000#16, 0x400#64⟩]) := by decide

/-- Section 6's mid-window reset: no set event, the registers of R112. -/
theorem test_reset_mid_window : shown afterSample20 .reset = some (Regs.reset, none, []) := by decide

/-! ## Witnesses: a state and operands that meet the hypotheses of each statement -/

/-- The registers of V-S1 satisfy the invariant: at reset, before a flip, in Excitation, at the window's last sample, and
after a publish. -/
theorem witness_inv_reset : Inv (k1State Regs.reset) := by constructor <;> decide
theorem witness_inv_before_flip : Inv (k1State afterSample10) := by constructor <;> decide
theorem witness_inv_excitation : Inv (k1State afterSample20) := by constructor <;> decide
theorem witness_inv_last_sample : Inv (k1State afterSample30) := by constructor <;> decide
theorem witness_inv_published : Inv (k1State afterSample40) := by constructor <;> decide

theorem witness_AdmissionIsTheSixConstraints : ¬ ({ State.reset with cfg := { k1 with p := 4 } }).cfg.Admitted := by decide

theorem witness_RefusedConfigurationNamesFirstFailure :
    step { State.reset with cfg := { k1 with w := 10 } } = .refused (.config .c4) := rfl

theorem witness_ResetStepRestoresEveryRegister :
    ({ k1State afterSample20 with inputs := [.reset, sampleEvent 9] }).cfg.Admitted ∧
    ({ k1State afterSample20 with inputs := [.reset, sampleEvent 9] }).inputs = .reset :: [sampleEvent 9] := by decide

theorem witness_MailboxIsEmptyBeforeFirstPublish :
    k1.Admitted ∧ (historyOf k1 [sampleEvent 1, sampleEvent 2, .reset, sampleEvent 3, sampleEvent 4, sampleEvent 5]).samples.length <
      4 ^ k1.extraBits := by decide

theorem witness_DecodeInvertsEncode :
    k1.Admitted ∧ (Instr.sample 1023#64).wf k1 = true ∧ (Instr.sample 1023#64).carriedBy .producer = true ∧
    (Instr.sshr 0xFFFFFFFF#64 63#6).wf k1 = true ∧ (Instr.sshr 0xFFFFFFFF#64 63#6).carriedBy .consumer = true ∧
    Instr.nop.wf k1 = true ∧ Instr.nop.carriedBy .producer = true := by decide

theorem witness_AcceptedTransactionIsAnEncoding :
    k1.Admitted ∧ (0xFFFFFFFF#64).toNat < 2 ^ k1.w ∧
    decode k1 ⟨.consumer, 0xA03F#16, 0xFFFFFFFF#64⟩ = .ok (.sshr 0xFFFFFFFF#64 63#6) := ⟨by decide, by decide, rfl⟩

theorem witness_AssemblerLinesDecodeToTheirCommands :
    k1.Admitted ∧ (AsmLine.sample 1023).inRange k1 = true ∧ (AsmLine.sshr (-2147483648) 63).inRange k1 = true ∧
    (AsmLine.sshr 2147483647 0).inRange k1 = true ∧ (AsmLine.sampleTimes 4 0).inRange k1 = true ∧
    (AsmLine.samples [0, 1023]).inRange k1 = true := by decide

theorem witness_StepRunsTheDecodedCommand :
    ({ k1State afterSample10 with inputs := [sampleEvent 20] }).cfg.Admitted ∧
    decode k1 (sampleLine 20) = .ok (.sample 20#64) := ⟨by decide, rfl⟩

theorem witness_RefusedTransactionOnlySetsTheMark :
    ({ k1State afterSample10 with inputs := [sampleEvent 1024] }).cfg.Admitted ∧
    decode k1 (sampleLine 1024) = .error .sampleRange := ⟨by decide, rfl⟩

/-- A step that answers a next state, for the statements about every step: on a sample that publishes, on a `CONSUME`, on a
reset, on a refused transaction. -/
theorem witness_steps :
    (nextOf afterSample30 (sampleEvent 40)).isSome ∧ (nextOf afterSample40 (commandEvent .consume)).isSome ∧
    (nextOf afterSample40 .reset).isSome ∧ (nextOf afterSample10 (sampleEvent 1024)).isSome := by decide

theorem witness_MarkIsStickyAndInert :
    ¬ ({ k1 with p := 4 }).Admitted ∧ (State.resetWith { k1 with p := 4 }).refused = [.configuration .c3] := by decide

theorem witness_BlockStepsOnEveryEvent :
    (k1State Regs.reset).cfg.Admitted ∧ ({ k1State Regs.reset with inputs := [.reset] }).inputs ≠ [] ∧
    (k1State Regs.reset).inputs = [] := by decide

theorem witness_SampleRunsItsSteps : k1.Admitted ∧ (1023#64 : Word).toNat < 2 ^ k1.sw := by decide

theorem witness_SampleGoesToExactlyOneBucket :
    (1023#64 : Word).toNat < 2 ^ (k1State afterSample30).cfg.sw ∧ afterSample10.exciting = false ∧
    afterSample30.exciting = true ∧ afterSample30.scnt + 1 = 4 ^ (k1State afterSample30).cfg.extraBits := by decide

theorem witness_LoAdvancesOnEverySample :
    afterSample10.pcnt + 1 = k1.p ∧ afterSample20.pcnt + 1 ≠ k1.p ∧ afterSample30.pcnt + 1 = k1.p := by decide

/-- Both clauses of the resync: the phase after the advance is 0 in a state a run reaches, 1 in one that none does. -/
theorem witness_ResyncForcesTheWindowStart :
    afterSample30.scnt + 1 = 4 ^ k1.extraBits ∧
    (if decide (afterSample30.pcnt + 1 = k1.p) then !afterSample30.exciting else afterSample30.exciting) = false ∧
    (let r := { afterSample30 with pcnt := 0 }
     r.scnt + 1 = 4 ^ k1.extraBits ∧ (if decide (r.pcnt + 1 = k1.p) then !r.exciting else r.exciting) = true) := by decide

/-- Operands for each row of R86's table at `W = 32`. -/
theorem witness_ScaleCornerCases :
    sintW 32 0#64 = 0 ∧ sintW 32 0xFFFFFFFF#64 = -1 ∧ sintW 32 0x80000000#64 = -(2 ^ (32 - 1) : Int) ∧
    sintW 32 0x7FFFFFFF#64 = (2 ^ (32 - 1) : Int) - 1 ∧ sintW 32 0xFFFFFF7E#64 < 0 ∧
    ¬ ((2 ^ 5 : Int) ∣ sintW 32 0xFFFFFF7E#64) := by decide

theorem witness_ScaleIsSignSymmetric : sintW 32 0xFFFFFF7E#64 ≠ -(2 ^ (32 - 1) : Int) := by decide

theorem witness_read_only_and_consume :
    (nextOf afterSample40 (commandEvent .peek)).isSome ∧ afterSample10.ready = false := by decide

theorem witness_SampleFrame :
    afterSample20.scnt + 1 ≠ 4 ^ k1.extraBits ∧ afterSample20.exciting = true ∧ afterSample20.pcnt + 1 ≠ k1.p ∧
    afterSample10.scnt + 1 ≠ 4 ^ k1.extraBits ∧ afterSample10.exciting = false := by decide

/-- The cases of the statements about what moves `ready_o`, the published pair and `mod_out`. -/
theorem witness_movers :
    (nextOf afterSample30 (sampleEvent 40)).map (fun t => (t.readyO, t.regs.pubExc, t.setEvents)) =
      some (true, 70#64, [false]) ∧
    (nextOf afterSample40 (commandEvent .consume)).map (fun t => t.readyO) = some false ∧
    (nextOf afterSample40 .reset).map (fun t => (t.readyO, t.regs.pubExc, t.modOutLevel)) = some (false, 0#64, true) ∧
    (nextOf afterSample20 (sampleEvent 30)).map (fun t => t.setEvents) = some [] := by decide

/-- Two states that differ in everything hidden and agree on the mailbox. -/
theorem witness_ConsumerSeesOnlyTheMailbox :
    (k1State afterSample10).cfg = (k1State afterSample30).cfg ∧ afterSample10.pubExc = afterSample30.pubExc ∧
    afterSample10.pubBg = afterSample30.pubBg ∧ afterSample10.ready = afterSample30.ready ∧
    afterSample10 ≠ afterSample30 := by decide

theorem witness_StepKeepsInvariant :
    (nextOf afterSample30 (sampleEvent 1023)).map (fun t => (t.regs.pubExc, t.regs.scnt)) = some (1053#64, 0) := by decide

/-- Events for the statements over runs: a full window, a `CONSUME`, a refused transaction, the next window's start. -/
def runEvents : List Event :=
  [sampleEvent 10, sampleEvent 20, commandEvent .poll, sampleEvent 30, sampleEvent 1024, sampleEvent 40,
   commandEvent .consume, sampleEvent 50]

theorem witness_runs :
    k1.Admitted ∧ Event.reset ∉ runEvents ∧ (historyOf k1 runEvents).samples = [10, 20, 30, 40, 50] ∧
    (historyOf k1 runEvents).unread = 0 := by decide

/-- Both sides of the case distinctions of the run statements: before and after the first flip, the first publish, the read
of a window. -/
theorem witness_run_clauses :
    (historyOf k1 []).samples.length < k1.p ∧ (historyOf k1 [sampleEvent 10, sampleEvent 20]).samples.length = k1.p ∧
    (historyOf k1 [sampleEvent 10, sampleEvent 20]).samples.length / 4 ^ k1.extraBits = 0 ∧
    (historyOf k1 runEvents).samples.length / 4 ^ k1.extraBits = 0 + 1 ∧
    (historyOf k1 (runEvents.take 6)).unread = 1 := by decide

/-- States that a history leaves: at reset, inside the first window with an event to come, and after a publish. -/
theorem witness_follows_start : Follows History.start (k1State Regs.reset) := by constructor <;> decide

theorem witness_follows_third_sample :
    Follows ⟨[10, 20, 30], 0⟩ { k1State afterSample30 with inputs := [sampleEvent 40, .reset] } := by
  constructor <;> decide

theorem witness_follows_published :
    Follows ⟨[10, 20, 30, 40], 1⟩ { k1State afterSample40 with inputs := [commandEvent .consume] } := by
  constructor <;> decide

/-- Both clauses of the flip statement, and both sides of its pin: samples 2 and 4 flip at `P = 2`, sample 3 does not. -/
theorem witness_SampleFlipsByTheSampleCount :
    decode k1 (sampleLine 40) = .ok (.sample 40#64) ∧ k1.p = 2 ∧
    (nextOf afterSample10 (sampleEvent 20)).map (fun t => (t.setEvents, t.modOutLevel)) = some ([true], true) ∧
    (nextOf afterSample20 (sampleEvent 30)).map (fun t => (t.setEvents, t.modOutLevel)) = some ([], true) ∧
    (nextOf afterSample30 (sampleEvent 40)).map (fun t => (t.setEvents, t.modOutLevel)) = some ([false], false) := by
  refine ⟨rfl, ?_⟩
  decide

theorem witness_KeepingUpReportsEachWindowOnce : KeepsUp k1 runEvents := by decide

theorem witness_ConsumerCannotDisturbTheProducer :
    (historyOf k1 runEvents).samples = (historyOf k1 ([10, 20, 30, 40, 50].map sampleEvent)).samples := by decide

theorem witness_DeliveredWindowRaisesReady :
    Event.reset ∉ [sampleEvent 30, commandEvent .poll, sampleEvent 40] ∧
    4 ^ k1.extraBits - afterSample20.scnt ≤
      (historyOf k1 [sampleEvent 30, commandEvent .poll, sampleEvent 40]).samples.length ∧
    (historyOf k1 [sampleEvent 30]).samples.length < 4 ^ k1.extraBits - afterSample20.scnt := by decide

/-- The third hypothesis of the same statement: none of those events is a `CONSUME`. -/
theorem witness_DeliveredWindow_has_no_consume :
    ∀ e ∈ [sampleEvent 30, commandEvent .poll, sampleEvent 40], ∀ tx, e = .transaction tx →
      decode k1 tx ≠ .ok .consume := by
  intro e he tx htx hd
  simp only [List.mem_cons, List.not_mem_nil, or_false] at he
  rcases he with rfl | rfl | rfl <;> cases htx <;> cases hd

theorem witness_ConstantInputFillsBothBuckets :
    (k1State afterSample40).regs.scnt = 0 ∧ 1023 < 2 ^ (k1State afterSample40).cfg.sw := by decide

/-- E6's first row: K1 after a window of 1023, with the default shifts; and a configuration with equal shifts. -/
theorem witness_ConstantInputGains :
    let r := { afterSample40 with pubExc := 2046#64, pubBg := 2046#64 }
    k1.Admitted ∧ 2 * r.pubExc.toNat = 1023 * 4 ^ k1.extraBits ∧ r.pubBg = r.pubExc ∧
    k1.excShift = k1.extraBits ∧ k1.bgShift = (k1.extraBits : Int) - 1 ∧ ({ k1 with bgShift := 1 }).Admitted ∧
    ({ k1 with bgShift := 1 }).bgShift = ({ k1 with bgShift := 1 }).excShift := by decide

end Sys2Proof.Tests
end

section
/-! SUPPORT. Admission of a configuration, both ways, and the step of a configuration that is not admitted
(spec/00_scope.md R16; spec/70_reset_and_hazards.md R113). -/

namespace Sys2Proof.Config

variable {c : Config}

/-- With the converse of `satisfies_of_admitted`: nothing but the six constraints is asked. -/
theorem admitted_iff_satisfies : c.Admitted ↔ ∀ k, c.satisfies k = true := by
  refine ⟨satisfies_of_admitted, fun h => ?_⟩
  unfold Admitted firstFailure
  rw [List.find?_eq_none]
  intro k _
  simp [h k]

theorem exists_firstFailure_of_not_admitted (h : ¬ c.Admitted) : ∃ k, c.firstFailure = some k :=
  Option.ne_none_iff_exists'.mp h

theorem satisfies_c1_iff : c.satisfies .c1 = true ↔ 1 ≤ c.extraBits := by simp [satisfies]

theorem satisfies_c2_iff : c.satisfies .c2 = true ↔ 1 ≤ c.p := by simp [satisfies]

theorem satisfies_c3_iff : c.satisfies .c3 = true ↔ c.windowLength % (2 * c.p) = 0 := by simp [satisfies]

/-- C4 also asks `1 ≤ W`: its bound is read over the integers. -/
theorem satisfies_c4_iff :
    c.satisfies .c4 = true ↔ 1 ≤ c.w ∧ (2 ^ c.sw - 1) * c.windowLength ≤ 2 ^ (c.w - 1) - 1 := by
  simp [satisfies]

theorem satisfies_c5_iff :
    c.satisfies .c5 = true ↔ 0 ≤ c.excShift ∧ c.excShift ≤ 63 ∧ 0 ≤ c.bgShift ∧ c.bgShift ≤ 63 := by
  simp [satisfies, and_assoc]

theorem satisfies_c6_iff : c.satisfies .c6 = true ↔ c.sw + 1 ≤ c.w ∧ c.w ≤ 64 := by simp [satisfies]

/-- R16 in numbers.  The `1 ≤ W` of C4 is not listed: C6 gives it. -/
theorem admitted_iff_numbers : c.Admitted ↔
    1 ≤ c.extraBits ∧ 1 ≤ c.p ∧ 4 ^ c.extraBits % (2 * c.p) = 0 ∧
    (2 ^ c.sw - 1) * 4 ^ c.extraBits ≤ 2 ^ (c.w - 1) - 1 ∧
    (0 ≤ c.excShift ∧ c.excShift ≤ 63 ∧ 0 ≤ c.bgShift ∧ c.bgShift ≤ 63) ∧
    (c.sw + 1 ≤ c.w ∧ c.w ≤ 64) := by
  rw [admitted_iff_satisfies]
  constructor
  · intro h
    exact ⟨satisfies_c1_iff.mp (h _), satisfies_c2_iff.mp (h _), satisfies_c3_iff.mp (h _),
      (satisfies_c4_iff.mp (h _)).2, satisfies_c5_iff.mp (h _), satisfies_c6_iff.mp (h _)⟩
  · rintro ⟨h1, h2, h3, h4, h5, h6⟩ k
    have hw : 1 ≤ c.w := (Nat.le_add_left 1 c.sw).trans h6.1
    cases k with
    | c1 => exact satisfies_c1_iff.mpr h1
    | c2 => exact satisfies_c2_iff.mpr h2
    | c3 => exact satisfies_c3_iff.mpr h3
    | c4 => exact satisfies_c4_iff.mpr ⟨hw, h4⟩
    | c5 => exact satisfies_c5_iff.mpr h5
    | c6 => exact satisfies_c6_iff.mpr h6

end Sys2Proof.Config

namespace Sys2Proof.Machine

theorem nextAction_of_firstFailure {s : State} {k : Constraint} (h : s.cfg.firstFailure = some k) :
    nextAction s = .stop (.config k) := by
  simp [nextAction, h]

/-- R113: whatever the events to come, a step refuses the configuration and names its first failed constraint. -/
theorem step_of_firstFailure {s : State} {k : Constraint} (h : s.cfg.firstFailure = some k) :
    step s = .refused (.config k) := by
  simp [step, nextAction_of_firstFailure h]

end Sys2Proof.Machine
end

section
namespace Sys2Proof.Proofs

open Sys2Proof.Config Sys2Proof.Machine

/-- Settles O1: admission is that no constraint is the first to fail, and a step looks at that before any event. -/
theorem admissionIsTheSixConstraints : Obligations.AdmissionIsTheSixConstraints := by
  unfold Obligations.AdmissionIsTheSixConstraints
  refine ⟨fun c => admitted_iff_numbers, fun s hs => ?_⟩
  obtain ⟨k, hk⟩ := exists_firstFailure_of_not_admitted hs
  exact ⟨k, step_of_firstFailure hk⟩

end Sys2Proof.Proofs
end

section
/-! SUPPORT. The LO and the two buckets as functions of the sample count (spec/41_lo_generator.md R75 to R79;
spec/40_engine.md R66, R67, R73). -/

namespace Sys2Proof.Machine

/-- A re-synchronisation that finds the LO at a window's start changes nothing (R78). -/
theorem loResync_of_window_start {a : LoResult} (hx : a.regs.exciting = false) (hp : a.regs.pcnt = 0) :
    loResync a = a := by
  rw [loResync_background hx, ← hp]

/-- An add is exact while the sum is in the non-negative signed range (R67). -/
theorem sintW_accumulate {w : Nat} {acc : Word} {n v : Nat} (h1 : 1 ≤ w) (hw : w ≤ 64) (hacc : sintW w acc = n)
    (h : n + v < 2 ^ (w - 1)) : sintW w (accumulate w acc v) = (n + v : Nat) := by
  rw [accumulate, hacc, ← Nat.cast_add]
  exact sintW_wrapW h1 hw (by omega) (by omega)

end Sys2Proof.Machine

namespace Sys2Proof.Safety

open Sys2Proof.Machine

variable {c : Config} {r : Regs} {p n : Nat}

/-! ## Sample counts -/

theorem mod_add_one_eq_iff (hp : 0 < p) : n % p + 1 = p ↔ (n + 1) % p = 0 := by
  obtain ⟨k, rfl⟩ := Nat.exists_eq_add_of_lt hp
  rw [Nat.zero_add, Nat.succ_mod_succ_eq_zero_iff]
  omega

theorem mod_add_one_of_ne_zero (hp : 0 < p) (hn : (n + 1) % p ≠ 0) : (n + 1) % p = n % p + 1 := by
  have hlt := Nat.mod_lt n hp
  have hne : n % p + 1 ≠ p := mt (mod_add_one_eq_iff hp).1 hn
  rw [← Nat.mod_add_mod n p 1, Nat.mod_eq_of_lt (a := n % p + 1) (by omega)]

theorem mod_window_mod_p (hc : c.Admitted) (n : Nat) : n % c.windowLength % c.p = n % c.p :=
  Nat.mod_mod_of_dvd n (Config.half_period_dvd hc)

/-- C3: a sample's place in its window gives the phase that its place since the reset gives. -/
theorem mod_window_div_p_parity (hc : c.Admitted) (n : Nat) :
    n % c.windowLength / c.p % 2 = n / c.p % 2 := by
  have hd : c.p * 2 ∣ c.windowLength := Nat.mul_comm 2 c.p ▸ Config.period_dvd hc
  rw [← Nat.mod_mul_right_div_self, Nat.mod_mod_of_dvd n hd, Nat.mod_mul_right_div_self]

/-! ## The LO -/

/-- The LO's registers when `n` samples were taken since the reset (R23, R79, R80). -/
structure LoAt (p n : Nat) (r : Regs) : Prop where
  pcnt_eq : r.pcnt = n % p
  exciting_eq : r.exciting = (n / p % 2 == 1)
  modOut_eq : r.modOut = if n < p then Config.modReset else r.exciting

/-- The LO is at a window's start when a whole number of windows was taken. -/
theorem LoAt.window_start (hc : c.Admitted) (h : LoAt c.p n r) (hn : n % c.windowLength = 0) :
    r.exciting = false ∧ r.pcnt = 0 := by
  have hx := mod_window_div_p_parity hc n
  have hp := mod_window_mod_p hc n
  rw [hn] at hx hp
  refine ⟨?_, ?_⟩
  · rw [h.exciting_eq, ← hx]
    simp
  · rw [h.pcnt_eq, ← hp, Nat.zero_mod]

/-- The advance counts one sample (R75). -/
theorem LoAt.advance (hp : 0 < p) (h : LoAt p n r) : LoAt p (n + 1) (loAdvance p r).regs := by
  obtain ⟨hcount, hphase, hout⟩ := h
  by_cases hflip : (n + 1) % p = 0
  · have hdiv : (n + 1) / p = n / p + 1 := Nat.succ_div_of_mod_eq_zero hflip
    have hle : p ≤ n + 1 := Nat.le_of_dvd n.succ_pos (Nat.dvd_of_mod_eq_zero hflip)
    rw [loAdvance_flip (by rw [hcount, mod_add_one_eq_iff hp, hflip])]
    refine ⟨hflip.symm, ?_, by simp [Nat.not_lt.2 hle]⟩
    rcases Nat.mod_two_eq_zero_or_one (n / p) with hpar | hpar <;> simp [hphase, hdiv, hpar, Nat.add_mod]
  · have hne : n % p + 1 ≠ p := mt (mod_add_one_eq_iff hp).1 hflip
    have hdiv : (n + 1) / p = n / p := Nat.succ_div_of_mod_ne_zero hflip
    rw [loAdvance_count (by rwa [hcount])]
    refine ⟨?_, by rw [hdiv]; exact hphase, ?_⟩
    · rw [mod_add_one_of_ne_zero hp hflip, ← hcount]
    · have hedge : n + 1 < p ↔ n < p := by
        refine ⟨by omega, fun hn => ?_⟩
        rw [Nat.mod_eq_of_lt hn] at hne
        omega
      simpa [hedge] using hout

/-- A publish is no business of the LO. -/
theorem LoAt.after_publish (h : LoAt p n r) : LoAt p n (publish r) := ⟨h.pcnt_eq, h.exciting_eq, h.modOut_eq⟩

/-- A step that publishes advances the LO past the `publish`; its re-synchronisation changes nothing (R78). -/
theorem LoAt.closeSample_eq_of_boundary (hc : c.Admitted) (h : LoAt c.p n r) (hs : r.scnt = c.windowLength)
    (hn : (n + 1) % c.windowLength = 0) : closeSample c r = loAdvance c.p (publish r) := by
  obtain ⟨hx, hp⟩ := (h.after_publish.advance (Config.p_pos hc)).window_start hc hn
  rw [closeSample_boundary hs, loResync_of_window_start hx hp]

/-! ## The buckets -/

theorem bucket_sums_lt_half (hc : c.Admitted) {ws : List Nat} (hlen : ws.length ≤ c.windowLength)
    (hws : ∀ v ∈ ws, v < 2 ^ c.sw) : excSum c ws + bgSum c ws < 2 ^ (c.w - 1) :=
  calc excSum c ws + bgSum c ws
      ≤ (2 ^ c.sw - 1) * ws.length := bucket_sums_le _ ws fun v hv => Nat.le_sub_one_of_lt (hws v hv)
    _ ≤ (2 ^ c.sw - 1) * c.windowLength := Nat.mul_le_mul_left _ hlen
    _ < 2 ^ (c.w - 1) := Config.window_sum_lt hc

/-- A classified sample is added to the bucket of its place in the window, and to no other (R65, R66). -/
theorem classify_sums {raw : Word} {ws : List Nat} (hc : c.Admitted) (hlen : ws.length < c.windowLength)
    (hws : ∀ v ∈ ws, v < 2 ^ c.sw) (hx : r.exciting = (ws.length / c.p % 2 == 1))
    (hexc : sintW c.w r.accExc = excSum c ws) (hbg : sintW c.w r.accBg = bgSum c ws) :
    sintW c.w (classify c raw r).accExc = excSum c (ws ++ [sampleValue c raw]) ∧
    sintW c.w (classify c raw r).accBg = bgSum c (ws ++ [sampleValue c raw]) := by
  have hfit : excSum c (ws ++ [sampleValue c raw]) + bgSum c (ws ++ [sampleValue c raw]) < 2 ^ (c.w - 1) := by
    refine bucket_sums_lt_half hc (by simpa using hlen) fun v hv => ?_
    rcases List.mem_append.1 hv with hv | hv
    · exact hws v hv
    · exact List.mem_singleton.1 hv ▸ sampleValue_lt c raw
  rw [excSum_snoc, bgSum_snoc] at hfit ⊢
  rcases Nat.mod_two_eq_zero_or_one (ws.length / c.p) with hpar | hpar
  · simp only [hpar, if_true, if_neg Nat.zero_ne_one, Nat.add_zero] at hfit ⊢
    rw [classify_background (by simp [hx, hpar])]
    exact ⟨hexc, sintW_accumulate (Config.w_pos hc) (Config.w_le hc) hbg (by omega)⟩
  · simp only [hpar, if_true, if_neg Nat.one_ne_zero, Nat.add_zero] at hfit ⊢
    rw [classify_excitation (by simp [hx, hpar])]
    exact ⟨sintW_accumulate (Config.w_pos hc) (Config.w_le hc) hexc (by omega), hbg⟩

/-- A whole number of half-cycles and the start of the next one. -/
theorem excCount_half_cycle (p m : Nat) {j : Nat} (hj : j ≤ p) :
    excCount p (p * m + j) = excCount p (p * m) + j * (m % 2) := by
  induction j with
  | zero => simp
  | succ j ih =>
    have hdiv : (p * m + j) / p = m := by
      rw [Nat.mul_add_div (by omega), Nat.div_eq_of_lt hj, Nat.add_zero]
    rw [← Nat.add_assoc, excCount, ih (by omega), hdiv, Nat.add_assoc, Nat.succ_mul]

theorem excCount_periods (p q : Nat) : excCount p (2 * p * q) = p * q := by
  induction q with
  | zero => rfl
  | succ q ih =>
    have hbg := excCount_half_cycle p (2 * q) (Nat.le_refl p)
    have hexc := excCount_half_cycle p (2 * q + 1) (Nat.le_refl p)
    have h2 : (2 * q + 1) % 2 = 1 := by omega
    rw [Nat.mul_mod_right, Nat.mul_zero, Nat.add_zero] at hbg
    rw [h2, Nat.mul_one, Nat.mul_add p (2 * q) 1, Nat.mul_one, hbg] at hexc
    rw [show 2 * p * (q + 1) = p * (2 * q) + p + p by ring, hexc, show p * (2 * q) = 2 * p * q by ring, ih]
    ring

/-- R73: half of a window's places are Excitation. -/
theorem excCount_windowLength (hc : c.Admitted) : excCount c.p c.windowLength = c.windowLength / 2 := by
  obtain ⟨q, hq⟩ := Config.period_dvd hc
  rw [hq, excCount_periods, Nat.mul_assoc, Nat.mul_div_cancel_left _ Nat.two_pos]

theorem two_dvd_windowLength (hc : c.Admitted) : 2 ∣ c.windowLength :=
  Nat.dvd_trans (Nat.dvd_mul_right 2 c.p) (Config.period_dvd hc)

/-- R73: the other half is Background. -/
theorem bgCount_windowLength (hc : c.Admitted) : bgCount c.p c.windowLength = c.windowLength / 2 := by
  have hadd := excCount_add_bgCount c.p c.windowLength
  have heven := two_dvd_windowLength hc
  rw [excCount_windowLength hc] at hadd
  omega

theorem bucket_sums_le_counts (B : Nat) (ws : List Nat) (h : ∀ v ∈ ws, v ≤ B) :
    excSum c ws ≤ B * excCount c.p ws.length ∧ bgSum c ws ≤ B * bgCount c.p ws.length := by
  induction ws using List.reverseRecOn with
  | nil => simp
  | append_singleton ws v ih =>
    have ih := ih fun u hu => h u (List.mem_append_left _ hu)
    have hv := h v (by simp)
    rw [excSum_snoc, bgSum_snoc, List.length_append, List.length_singleton, excCount, bgCount, Nat.mul_add, Nat.mul_add]
    rcases Nat.mod_two_eq_zero_or_one (ws.length / c.p) with hp | hp <;> simp [hp] <;> omega

/-- R34 items 6 and 7, for the sums of at most one window. -/
theorem bucket_sums_le_half_window (hc : c.Admitted) {ws : List Nat} (hlen : ws.length ≤ c.windowLength)
    (hws : ∀ v ∈ ws, v < 2 ^ c.sw) :
    excSum c ws ≤ (2 ^ c.sw - 1) * (c.windowLength / 2) ∧ bgSum c ws ≤ (2 ^ c.sw - 1) * (c.windowLength / 2) := by
  obtain ⟨hexc, hbg⟩ := bucket_sums_le_counts _ ws fun v hv => Nat.le_sub_one_of_lt (hws v hv)
  have hexc' := excCount_le_of_le c.p hlen
  have hbg' := bgCount_le_of_le c.p hlen
  rw [excCount_windowLength hc] at hexc'
  rw [bgCount_windowLength hc] at hbg'
  exact ⟨hexc.trans (Nat.mul_le_mul_left _ hexc'), hbg.trans (Nat.mul_le_mul_left _ hbg')⟩

/-- R34's bound is a natural number: the division is exact. -/
theorem half_window_bound_cast (hc : c.Admitted) :
    (((2 ^ c.sw - 1) * (c.windowLength / 2) : Nat) : Int) = (2 ^ c.sw - 1) * 4 ^ c.extraBits / 2 := by
  have hsw := Nat.two_pow_pos c.sw
  rw [← Nat.mul_div_assoc _ (two_dvd_windowLength hc)]
  push_cast [Nat.cast_sub hsw, Config.windowLength]
  rfl

theorem length_lastWindow_le (c : Config) (vs : List Nat) : (lastWindow c vs).length ≤ c.windowLength := by
  unfold lastWindow
  split
  · exact Nat.zero_le _
  · exact List.length_take_le _ _

theorem lastWindow_mem {vs : List Nat} {v : Nat} (h : v ∈ lastWindow c vs) : v ∈ vs := by
  unfold lastWindow at h
  split at h
  · exact absurd h List.not_mem_nil
  · exact List.mem_of_mem_drop (List.mem_of_mem_take h)

end Sys2Proof.Safety
end

section
/-! SUPPORT. A state and its history: reset, every command, one step and a run keep the tie (spec/10_state.md R29, R34;
spec/40_engine.md R64, R69; spec/41_lo_generator.md R79). -/

namespace Sys2Proof.Machine

variable {s : State} {rest : List Event} {tx : Transaction}

theorem step_reset (hc : s.cfg.Admitted) (hi : s.inputs = .reset :: rest) :
    step s = .next (State.takeReset { s with inputs := rest }) := by
  simp only [step, nextAction_reset hc hi]

theorem step_refused {why : RefusalReason} (hc : s.cfg.Admitted) (hi : s.inputs = .transaction tx :: rest)
    (hd : decode s.cfg tx = .error why) :
    step s = .next (State.refuse why (onWires s.cfg tx) { s with inputs := rest }) := by
  simp only [step, nextAction_transaction hc hi, hd]

theorem step_accepted {i : Instr} (hc : s.cfg.Admitted) (hi : s.inputs = .transaction tx :: rest)
    (hd : decode s.cfg tx = .ok i) : step s = exec i { s with inputs := rest } := by
  simp only [step, nextAction_transaction hc hi, hd]

end Sys2Proof.Machine

namespace Sys2Proof.Safety

open Sys2Proof.Machine

variable {c : Config} {h : History} {s t : State}

/-- Every command but `SAMPLE` and `CONSUME` leaves the registers alone (R31, R42). -/
theorem exec_readOnly (s : State) {i : Instr} (hs : ∀ raw, i ≠ .sample raw) (hc : i ≠ .consume) :
    ∃ rsp, exec i s = .next (s.respond rsp) := by
  cases i with
  | nop => exact ⟨_, rfl⟩
  | sample raw => exact absurd rfl (hs raw)
  | poll => exact ⟨_, rfl⟩
  | consume => exact absurd rfl hc
  | peek => exact ⟨_, rfl⟩
  | sshr x n => exact ⟨_, rfl⟩

theorem command_readOnly (c : Config) (h : History) {i : Instr} (hs : ∀ raw, i ≠ .sample raw) (hc : i ≠ .consume) :
    h.command c i = h := by
  cases i with
  | sample raw => exact absurd rfl (hs raw)
  | consume => exact absurd rfl hc
  | nop | poll | peek | sshr => rfl

/-- The tie looks at the configuration and the registers only. -/
theorem Follows.congr (hf : Follows h s) (hcfg : t.cfg = s.cfg) (hregs : t.regs = s.regs) : Follows h t := by
  cases s
  cases t
  subst hcfg hregs
  exact { hf with }

theorem Follows.loAt (hf : Follows h s) : LoAt s.cfg.p h.samples.length s.regs :=
  ⟨hf.pcnt_eq, hf.exciting_eq, hf.modOut_eq⟩

theorem follows_start (hc : s.cfg.Admitted) (hr : s.regs = Regs.reset) : Follows History.start s where
  admitted := hc
  samples_lt := by simp [History.start]
  scnt_eq := by simp [hr, History.start]
  pcnt_eq := by simp [hr, History.start]
  exciting_eq := by simp [hr, History.start]
  modOut_eq := by simp [hr, History.start, Config.p_pos hc, Config.modReset]
  accExc_eq := by simp [hr, History.start, currentWindow, sintW, uintW]
  accBg_eq := by simp [hr, History.start, currentWindow, sintW, uintW]
  pubExc_eq := by simp [hr, History.start, lastWindow, sintW, uintW]
  pubBg_eq := by simp [hr, History.start, lastWindow, sintW, uintW]
  ready_eq := by simp [hr, History.start]

/-! ## One sample -/

theorem Follows.loAt_counted (hf : Follows h s) (raw : Word) :
    LoAt s.cfg.p h.samples.length (countSample (classify s.cfg raw s.regs)) where
  pcnt_eq := by simpa using hf.pcnt_eq
  exciting_eq := by simpa using hf.exciting_eq
  modOut_eq := by simpa using hf.modOut_eq

theorem Follows.counted_sums (hf : Follows h s) (raw : Word) :
    sintW s.cfg.w (countSample (classify s.cfg raw s.regs)).accExc =
      excSum s.cfg (currentWindow s.cfg h.samples ++ [sampleValue s.cfg raw]) ∧
    sintW s.cfg.w (countSample (classify s.cfg raw s.regs)).accBg =
      bgSum s.cfg (currentWindow s.cfg h.samples ++ [sampleValue s.cfg raw]) := by
  refine classify_sums hf.admitted ?_ (fun v hv => hf.samples_lt v (currentWindow_mem hv)) ?_ hf.accExc_eq hf.accBg_eq
  · rw [length_currentWindow]
    exact Nat.mod_lt _ (Config.windowLength_pos _)
  · rw [length_currentWindow, mod_window_div_p_parity hf.admitted, hf.exciting_eq]

theorem Follows.counted_scnt (hf : Follows h s) (raw : Word) :
    (countSample (classify s.cfg raw s.regs)).scnt = h.samples.length % s.cfg.windowLength + 1 := by
  simp [hf.scnt_eq]

theorem Follows.samples_snoc_lt (hf : Follows h s) (raw : Word) :
    ∀ v ∈ h.samples ++ [sampleValue s.cfg raw], v < 2 ^ s.cfg.sw := by
  intro v hv
  rcases List.mem_append.1 hv with hv | hv
  · exact hf.samples_lt v hv
  · exact List.mem_singleton.1 hv ▸ sampleValue_lt s.cfg raw

/-- A sample inside a window: counted and summed, nothing published. -/
theorem Follows.sample_inside (hf : Follows h s) {raw : Word} (evs : List Bool) (rsp : Response)
    (hin : (h.samples.length + 1) % s.cfg.windowLength ≠ 0) :
    Follows (h.command s.cfg (.sample raw))
      (s.answer (loAdvance s.cfg.p (countSample (classify s.cfg raw s.regs))).regs evs rsp) := by
  have hlo := (hf.loAt_counted raw).advance (Config.p_pos hf.admitted)
  obtain ⟨hexc, hbg⟩ := hf.counted_sums raw
  obtain ⟨kexc, kbg, kscnt, kpexc, kpbg, kready⟩ :=
    loAdvance_keeps (p := s.cfg.p) (r := countSample (classify s.cfg raw s.regs))
  constructor <;> simp only [History.command, State.answer_cfg, State.answer_regs, List.length_append,
    List.length_singleton, currentWindow_snoc_inside _ hin, lastWindow_snoc_inside _ hin, if_neg hin]
  case admitted => exact hf.admitted
  case samples_lt => exact hf.samples_snoc_lt raw
  case scnt_eq => rw [kscnt, hf.counted_scnt, mod_add_one_of_ne_zero (Config.windowLength_pos _) hin]
  case pcnt_eq => exact hlo.pcnt_eq
  case exciting_eq => exact hlo.exciting_eq
  case modOut_eq => exact hlo.modOut_eq
  case accExc_eq => rw [kexc, hexc]
  case accBg_eq => rw [kbg, hbg]
  case pubExc_eq => rw [kpexc]; simpa using hf.pubExc_eq
  case pubBg_eq => rw [kpbg]; simpa using hf.pubBg_eq
  case ready_eq => rw [kready]; simpa using hf.ready_eq

/-- A sample that completes a window: the sums with it are published and the next window is empty (R69). -/
theorem Follows.sample_boundary (hf : Follows h s) {raw : Word} (evs : List Bool) (rsp : Response)
    (hend : (h.samples.length + 1) % s.cfg.windowLength = 0) :
    Follows (h.command s.cfg (.sample raw))
      (s.answer (loAdvance s.cfg.p (publish (countSample (classify s.cfg raw s.regs)))).regs evs rsp) := by
  have hlo := (hf.loAt_counted raw).after_publish.advance (Config.p_pos hf.admitted)
  obtain ⟨hexc, hbg⟩ := hf.counted_sums raw
  obtain ⟨kexc, kbg, kscnt, kpexc, kpbg, kready⟩ :=
    loAdvance_keeps (p := s.cfg.p) (r := publish (countSample (classify s.cfg raw s.regs)))
  constructor <;> simp only [History.command, State.answer_cfg, State.answer_regs, List.length_append,
    List.length_singleton, currentWindow_snoc_boundary _ hend, lastWindow_snoc_boundary _ hend, if_pos hend]
  case admitted => exact hf.admitted
  case samples_lt => exact hf.samples_snoc_lt raw
  case scnt_eq => rw [kscnt, publish_scnt, hend]
  case pcnt_eq => exact hlo.pcnt_eq
  case exciting_eq => exact hlo.exciting_eq
  case modOut_eq => exact hlo.modOut_eq
  case accExc_eq => rw [kexc, publish_accExc]; simp [sintW, uintW]
  case accBg_eq => rw [kbg, publish_accBg]; simp [sintW, uintW]
  case pubExc_eq => rw [kpexc, publish_pubExc, hexc]
  case pubBg_eq => rw [kpbg, publish_pubBg, hbg]
  case ready_eq => rw [kready]; simp

theorem Follows.sample (hf : Follows h s) (raw : Word) (evs : List Bool) (rsp : Response) :
    Follows (h.command s.cfg (.sample raw))
      (s.answer (closeSample s.cfg (countSample (classify s.cfg raw s.regs))).regs evs rsp) := by
  have hcount := hf.counted_scnt raw
  have hL := mod_add_one_eq_iff (n := h.samples.length) (Config.windowLength_pos s.cfg)
  by_cases hend : (h.samples.length + 1) % s.cfg.windowLength = 0
  · rw [(hf.loAt_counted raw).closeSample_eq_of_boundary hf.admitted (hcount.trans (hL.2 hend)) hend]
    exact hf.sample_boundary evs rsp hend
  · rw [closeSample_inside (hcount.trans_ne (mt hL.1 hend))]
    exact hf.sample_inside evs rsp hend

/-! ## Commands, events and runs -/

theorem Follows.consume (hf : Follows h s) (evs : List Bool) (rsp : Response) :
    Follows (h.command s.cfg .consume) (s.answer s.regs.clearReady evs rsp) :=
  { hf with ready_eq := rfl }

/-- Every command completes and leaves a state that the history with its mark leaves. -/
theorem Follows.exec_next (hf : Follows h s) (i : Instr) :
    ∃ t, exec i s = .next t ∧ t.inputs = s.inputs ∧ t.cfg = s.cfg ∧ Follows (h.command s.cfg i) t := by
  by_cases hs : ∃ raw, i = .sample raw
  · obtain ⟨raw, rfl⟩ := hs
    exact ⟨_, rfl, rfl, rfl, hf.sample raw _ _⟩
  by_cases hc : i = .consume
  · subst hc
    exact ⟨_, rfl, rfl, rfl, hf.consume _ _⟩
  have hs' : ∀ raw, i ≠ .sample raw := fun raw hi => hs ⟨raw, hi⟩
  obtain ⟨rsp, hexec⟩ := exec_readOnly s hs' hc
  refine ⟨_, hexec, rfl, rfl, ?_⟩
  rw [command_readOnly s.cfg h hs' hc]
  exact hf.congr rfl rfl

/-- One step keeps the tie, on any event. -/
theorem Follows.step_next {e : Event} {rest : List Event} (hf : Follows h s) (hi : s.inputs = e :: rest) :
    ∃ t, step s = .next t ∧ t.inputs = rest ∧ t.cfg = s.cfg ∧ Follows (h.event s.cfg e) t := by
  have hf' : Follows h { s with inputs := rest } := hf.congr rfl rfl
  cases e with
  | reset => exact ⟨_, step_reset hf.admitted hi, rfl, rfl, follows_start hf.admitted rfl⟩
  | transaction tx =>
    cases hd : decode s.cfg tx with
    | error why =>
      refine ⟨_, step_refused hf.admitted hi hd, rfl, rfl, ?_⟩
      rw [event_refused hd]
      exact hf.congr rfl rfl
    | ok i =>
      obtain ⟨t, hexec, hin, hcfg, hft⟩ := hf'.exec_next i
      refine ⟨t, (step_accepted hf.admitted hi hd).trans hexec, hin, hcfg, ?_⟩
      rw [event_accepted hd]
      exact hft

/-- A run takes its events one by one and keeps the tie. -/
theorem Follows.run_next (es : List Event) {rest : List Event} (hf : Follows h s) (hi : s.inputs = es ++ rest) :
    ∃ t, run es.length s = .next t ∧ t.inputs = rest ∧ t.cfg = s.cfg ∧
      Follows (es.foldl (History.event s.cfg) h) t := by
  induction es generalizing h s with
  | nil => exact ⟨s, rfl, hi, rfl, hf⟩
  | cons e es ih =>
    obtain ⟨t, hstep, hin, hcfg, hft⟩ := hf.step_next hi
    obtain ⟨u, hrun, hout, hcfg', hfu⟩ := ih hft hin
    refine ⟨u, ?_, hout, hcfg'.trans hcfg, ?_⟩
    · rw [List.length_cons, run_succ hstep, hrun]
    · rw [hcfg] at hfu
      exact hfu

/-- A run from reset ends in a state that its history leaves. -/
theorem run_from_reset_follows (hc : c.Admitted) (es rest : List Event) :
    ∃ t, run es.length { State.resetWith c with inputs := es ++ rest } = .next t ∧ t.cfg = c ∧ t.inputs = rest ∧
      Follows (historyOf c es) t := by
  have hstart : Follows History.start { State.resetWith c with inputs := es ++ rest } := follows_start hc rfl
  obtain ⟨t, hrun, hin, hcfg, hft⟩ := hstart.run_next es rfl
  exact ⟨t, hrun, hcfg, hin, hft⟩

/-! ## R34 of a state that a history leaves -/

theorem Follows.sums_le (hf : Follows h s) :
    excSum s.cfg (currentWindow s.cfg h.samples) ≤ (2 ^ s.cfg.sw - 1) * (s.cfg.windowLength / 2) ∧
    bgSum s.cfg (currentWindow s.cfg h.samples) ≤ (2 ^ s.cfg.sw - 1) * (s.cfg.windowLength / 2) := by
  refine bucket_sums_le_half_window hf.admitted ?_ fun v hv => hf.samples_lt v (currentWindow_mem hv)
  rw [length_currentWindow]
  exact (Nat.mod_lt _ (Config.windowLength_pos _)).le

theorem Follows.published_sums_le (hf : Follows h s) :
    excSum s.cfg (lastWindow s.cfg h.samples) ≤ (2 ^ s.cfg.sw - 1) * (s.cfg.windowLength / 2) ∧
    bgSum s.cfg (lastWindow s.cfg h.samples) ≤ (2 ^ s.cfg.sw - 1) * (s.cfg.windowLength / 2) :=
  bucket_sums_le_half_window hf.admitted (length_lastWindow_le _ _) fun v hv => hf.samples_lt v (lastWindow_mem hv)

end Sys2Proof.Safety
end

section
namespace Sys2Proof.Proofs

open Sys2Proof.Machine Sys2Proof.Safety

/-- Settles O47: a run from reset ends in a state its history leaves (`run_from_reset_follows`), and R34's seven items hold
of every such state. -/
theorem runsReachOnlyStatesOfR34 : Obligations.RunsReachOnlyStatesOfR34 := by
  unfold Obligations.RunsReachOnlyStatesOfR34
  intro c es rest hc
  obtain ⟨t, hrun, rfl, hin, hf⟩ := run_from_reset_follows hc es rest
  refine ⟨t, hrun, rfl, hin, ?_⟩
  obtain ⟨hexc, hbg⟩ := hf.sums_le
  obtain ⟨hpexc, hpbg⟩ := hf.published_sums_le
  dsimp only
  rw [← half_window_bound_cast hc, hf.accExc_eq, hf.accBg_eq, hf.pubExc_eq, hf.pubBg_eq, length_currentWindow, hf.scnt_eq,
    mod_window_mod_p hc, mod_window_div_p_parity hc]
  refine ⟨?item1, rfl, hf.pcnt_eq, ?item3, ?beforeFlip, ?afterFlip, rfl, rfl, mod_cast hexc, mod_cast hbg,
    ⟨Int.natCast_nonneg _, mod_cast hpexc⟩, ⟨Int.natCast_nonneg _, mod_cast hpbg⟩⟩
  case item1 => exact Nat.le_sub_one_of_lt (Nat.mod_lt _ (Config.windowLength_pos _))
  case item3 => rw [hf.exciting_eq, beq_iff_eq]
  case beforeFlip => exact fun hlt => by rw [hf.modOut_eq, if_pos hlt, Config.modReset]
  case afterFlip => exact fun hle => by rw [hf.modOut_eq, if_neg (Nat.not_lt.2 hle)]

end Sys2Proof.Proofs
end

section
/-! SUPPORT. The decoder's fields and answers as numbers (spec/30_encoding.md R52, R56, R57). -/

namespace Sys2Proof

open Sys2Proof.Machine

theorem rsvField_eq_zero_iff {cw : CmdWord} : rsvField cw = 0#7 ↔ cw.toNat / 64 % 128 = 0 := by
  rw [← BitVec.toNat_inj, rsvField_toNat, BitVec.toNat_zero]

theorem nField_eq_zero_iff {cw : CmdWord} : nField cw = 0#6 ↔ cw.toNat % 64 = 0 := by
  rw [← BitVec.toNat_inj, nField_toNat, BitVec.toNat_zero]

theorem nField_eq_ofNat (cw : CmdWord) : nField cw = BitVec.ofNat 6 (cw.toNat % 64) := by
  rw [← nField_toNat, BitVec.ofNat_toNat, BitVec.setWidth_eq]

theorem lowBits_eq_zero_iff {w : Nat} (hw : w ≤ 64) {p : Word} : lowBits w p = 0#64 ↔ p.toNat % 2 ^ w = 0 := by
  rw [← BitVec.toNat_inj, lowBits_toNat hw, BitVec.toNat_zero]

/-- The bits R57 asks to be zero on `SAMPLE`: `DW[W-1:SW]`. -/
theorem bitsFrom_lowBits {w : Nat} (hw : w ≤ 64) (n : Nat) (p : Word) :
    bitsFrom n (lowBits w p) = p.toNat % 2 ^ w / 2 ^ n := by
  rw [bitsFrom, lowBits_toNat hw]

/-- The `CMD` field of R56's map, as a number. -/
def Command.number : Command → Nat
  | .nop => 0
  | .sample => 1
  | .poll => 2
  | .consume => 3
  | .peek => 4
  | .sshr => 5

theorem commandOf_eq_some_iff {cmd : BitVec 3} {op : Command} : commandOf cmd = some op ↔ cmd.toNat = op.number := by
  revert cmd
  cases op <;> decide

theorem commandOf_eq_none_iff {cmd : BitVec 3} : commandOf cmd = none ↔ cmd.toNat = 6 ∨ cmd.toNat = 7 := by
  revert cmd
  decide

/-- R58's first check. -/
theorem decode_reserved {c : Config} {tx : Transaction} (h : commandOf (cmdField tx.cw) = none) :
    decode c tx = .error .reservedCmd := by
  simp only [decode, h]

end Sys2Proof
end

section
namespace Sys2Proof.Proofs

open Sys2Proof.Machine

/-- Settles O9: `CMD` is reserved or names one command (R56), and for each command the checks that speak of another
drop out of both chains. -/
theorem decodeReportsTheFirstFailedCheck : Obligations.DecodeReportsTheFirstFailedCheck := by
  unfold Obligations.DecodeReportsTheFirstFailedCheck
  intro c tx hc
  have hw := Config.w_le hc
  dsimp only
  rw [← cmdField_toNat]
  cases hop : commandOf (cmdField tx.cw) with
  | none => rw [if_pos (commandOf_eq_none_iff.mp hop), decode_reserved hop]
  | some op =>
    rw [commandOf_eq_some_iff.mp hop]
    simp only [decode, hop, ne_eq, rsvField_eq_zero_iff, nField_eq_zero_iff, lowBits_eq_zero_iff hw, bitsFrom_lowBits hw]
    cases op with
    | nop | poll | consume | peek => simp [Command.number, Command.noData, Command.consumerOnly, Command.instr]
    | sample | sshr =>
      simp [Command.number, Command.noData, Command.consumerOnly, Command.instr, lowBits, nField_eq_ofNat]

end Sys2Proof.Proofs
end

section
/-! SUPPORT. `SAMPLE` from its transaction to its sums: its decoding, the bucket it adds to, and that the add is exact under
the invariant (spec/30_encoding.md R54, R57, R58; spec/40_engine.md R65 to R67). -/

namespace Sys2Proof

open Sys2Proof.Machine

/-- `SAMPLE` passes every check of R58 but the port's: its data word is in range, so `DW[W-1:SW]` is 0. -/
theorem decode_sample {c : Config} {raw : Word} (hc : c.Admitted) (hraw : raw.toNat < 2 ^ c.sw) (port : Port) :
    decode c ⟨port, 0x2000#16, raw⟩ = if port = .producer then .ok (.sample raw) else .error .wrongPort := by
  have hop : commandOf (cmdField 0x2000#16) = some .sample := by decide
  have hrsv : rsvField 0x2000#16 = 0#7 := by decide
  have hn : nField 0x2000#16 = 0#6 := by decide
  have hdw : lowBits c.w raw = raw :=
    lowBits_of_lt (hraw.trans (Nat.pow_lt_pow_right Nat.one_lt_two (Config.sw_lt_w hc)))
  have hrange : bitsFrom c.sw raw = 0 := Nat.div_eq_of_lt hraw
  simp only [decode, hop, hrsv, hn, hdw, hrange]
  cases port <;> simp [Command.noData, Command.consumerOnly, Command.instr]

namespace Machine

variable {c : Config} {r : Regs} {raw : Word}

theorem classify_accExc :
    (classify c raw r).accExc = if r.exciting then accumulate c.w r.accExc (sampleValue c raw) else r.accExc := by
  cases hx : r.exciting with
  | true => rw [classify_excitation hx, if_pos rfl]
  | false => rw [classify_background hx, if_neg Bool.false_ne_true]

theorem classify_accBg :
    (classify c raw r).accBg = if r.exciting then r.accBg else accumulate c.w r.accBg (sampleValue c raw) := by
  cases hx : r.exciting with
  | true => rw [classify_excitation hx, if_pos rfl]
  | false => rw [classify_background hx, if_neg Bool.false_ne_true]

/-- An add to a bucket with room is the signed sum (R67). -/
theorem sintW_accumulate_of_lt_half {w : Nat} {acc : Word} {v : Nat} (h1 : 1 ≤ w) (hw : w ≤ 64)
    (h : acc.toNat + v < 2 ^ (w - 1)) : sintW w (accumulate w acc v) = sintW w acc + v := by
  have hacc : sintW w acc = acc.toNat := sintW_of_lt_half h1 (by omega)
  rw [sintW_accumulate h1 hw hacc h, hacc, Nat.cast_add]

/-- Both cases of the re-synchronisation (R77) in one record. -/
theorem loResync_eq (a : LoResult) :
    loResync a =
      { regs := { a.regs with exciting := false, pcnt := 0, modOut := !a.regs.exciting && a.regs.modOut }
        setEvents := a.setEvents ++ if a.regs.exciting then [false] else []
        modSet := a.modSet || a.regs.exciting
        modLevel := a.modLevel && !a.regs.exciting } := by
  cases hx : a.regs.exciting with
  | true => simp [loResync_excitation hx]
  | false => simp [loResync_background hx, ← hx]

theorem exec_sample_inside {s : State} (h : s.regs.scnt + 1 ≠ s.cfg.windowLength) :
    let lo := loAdvance s.cfg.p (countSample (classify s.cfg raw s.regs))
    exec (.sample raw) s = .next (s.answer lo.regs lo.setEvents (.sample false lo.modSet lo.modLevel)) := by
  have hs : (countSample (classify s.cfg raw s.regs)).scnt ≠ s.cfg.windowLength := by simpa using h
  have hfull : windowFull s.cfg (countSample (classify s.cfg raw s.regs)) = false := beq_false_of_ne hs
  simp only [exec, execSample, closeSample_inside hs, hfull]

theorem exec_sample_boundary {s : State} (h : s.regs.scnt + 1 = s.cfg.windowLength) :
    let lo := loResync (loAdvance s.cfg.p (publish (countSample (classify s.cfg raw s.regs))))
    exec (.sample raw) s = .next (s.answer lo.regs lo.setEvents (.sample true lo.modSet lo.modLevel)) := by
  have hs : (countSample (classify s.cfg raw s.regs)).scnt = s.cfg.windowLength := by simpa using h
  have hfull : windowFull s.cfg (countSample (classify s.cfg raw s.regs)) = true := beq_of_eq hs
  simp only [exec, execSample, closeSample_boundary hs, hfull]

end Machine
end Sys2Proof

namespace Sys2Proof.Safety

open Sys2Proof.Machine

variable {s : State} {v acc k : Nat}

/-- A bucket that holds no more than its samples' largest sum has room for one more sample of the window (R67). -/
theorem Inv.add_lt_half (hi : Inv s) (hacc : acc ≤ (2 ^ s.cfg.sw - 1) * k) (hk : k ≤ s.regs.scnt)
    (hv : v < 2 ^ s.cfg.sw) : acc + v < 2 ^ (s.cfg.w - 1) :=
  calc acc + v
      ≤ (2 ^ s.cfg.sw - 1) * k + (2 ^ s.cfg.sw - 1) := Nat.add_le_add hacc (Nat.le_sub_one_of_lt hv)
    _ = (2 ^ s.cfg.sw - 1) * (k + 1) := rfl
    _ ≤ (2 ^ s.cfg.sw - 1) * s.cfg.windowLength := Nat.mul_le_mul_left _ (Nat.succ_le_of_lt (hk.trans_lt hi.scnt_lt))
    _ < 2 ^ (s.cfg.w - 1) := Config.window_sum_lt hi.admitted

theorem Inv.accExc_add_lt (hi : Inv s) (hv : v < 2 ^ s.cfg.sw) : s.regs.accExc.toNat + v < 2 ^ (s.cfg.w - 1) :=
  hi.add_lt_half hi.accExc_le (by have := excCount_add_bgCount s.cfg.p s.regs.scnt; omega) hv

theorem Inv.accBg_add_lt (hi : Inv s) (hv : v < 2 ^ s.cfg.sw) : s.regs.accBg.toNat + v < 2 ^ (s.cfg.w - 1) :=
  hi.add_lt_half hi.accBg_le (by have := excCount_add_bgCount s.cfg.p s.regs.scnt; omega) hv

end Sys2Proof.Safety
end

section
namespace Sys2Proof.Proofs

open Sys2Proof.Machine Sys2Proof.Safety

/-- Settles O18: no check of R58 speaks of the all-zero transaction, on either port. -/
theorem nopChangesNothing : Obligations.NopChangesNothing := by
  unfold Obligations.NopChangesNothing
  refine ⟨fun c port => ?_, fun s => rfl⟩
  have hop : commandOf (cmdField 0x0000#16) = some .nop := by decide
  have hrsv : rsvField 0x0000#16 = 0#7 := by decide
  have hn : nField 0x0000#16 = 0#6 := by decide
  have hdw : lowBits c.w 0#64 = 0#64 := lowBits_of_lt (Nat.two_pow_pos c.w)
  simp [decode, hop, hrsv, hn, hdw, Command.consumerOnly, Command.instr]

/-- Settles O23: the four cases of publishing and flipping, and in the publishing ones the phase that the resync finds. -/
theorem sampleRunsItsSteps : Obligations.SampleRunsItsSteps := by
  unfold Obligations.SampleRunsItsSteps
  refine ⟨fun c raw hc hraw => ⟨decode_sample hc hraw .producer, decode_sample hc hraw .consumer⟩, fun s raw => ?_⟩
  dsimp only
  rw [← Config.windowLength, ← sampleValue, ← accumulate, ← accumulate, ← classify_accExc, ← classify_accBg]
  by_cases hpub : s.regs.scnt + 1 = s.cfg.windowLength
  · rw [exec_sample_boundary hpub, loResync_eq]
    by_cases hflip : s.regs.pcnt + 1 = s.cfg.p
    · rw [loAdvance_flip (by simpa using hflip)]
      simp [hpub, hflip, State.answer, publish]
    · rw [loAdvance_count (by simpa using hflip)]
      simp [hpub, hflip, State.answer, publish]
  · rw [exec_sample_inside hpub]
    by_cases hflip : s.regs.pcnt + 1 = s.cfg.p
    · rw [loAdvance_flip (by simpa using hflip)]
      simp [hpub, hflip, State.answer, countSample]
    · rw [loAdvance_count (by simpa using hflip)]
      simp [hpub, hflip, State.answer, countSample]

/-- Settles O25: both cases are read off the whole effect (`sampleRunsItsSteps`). -/
theorem sampleCountsAndPublishesAtWindowEnd : Obligations.SampleCountsAndPublishesAtWindowEnd := by
  unfold Obligations.SampleCountsAndPublishesAtWindowEnd
  intro s raw
  refine ⟨_, sampleRunsItsSteps.2 s raw, fun hfull => ?_, fun hfull => ?_⟩
  · simp [hfull]
  · simp [hfull]

/-- Settles O24: the sums of the whole effect (`sampleRunsItsSteps`), with an add that the invariant keeps exact. -/
theorem sampleGoesToExactlyOneBucket : Obligations.SampleGoesToExactlyOneBucket := by
  unfold Obligations.SampleGoesToExactlyOneBucket
  intro s raw hi hraw
  have h1 := Config.w_pos hi.admitted
  have hw := Config.w_le hi.admitted
  have hexc := sintW_accumulate_of_lt_half h1 hw (hi.accExc_add_lt hraw)
  have hbg := sintW_accumulate_of_lt_half h1 hw (hi.accBg_add_lt hraw)
  rw [accumulate] at hexc hbg
  refine ⟨_, sampleRunsItsSteps.2 s raw, ?_⟩
  by_cases hfull : s.regs.scnt + 1 = 4 ^ s.cfg.extraBits
  · constructor <;> intro hx <;> simp [hfull, hx, Nat.mod_eq_of_lt hraw, hexc, hbg]
  · constructor <;> intro hx <;> simp [hfull, hx, Nat.mod_eq_of_lt hraw, hexc, hbg]

end Sys2Proof.Proofs
end

section
/-! SUPPORT. A window from any state of the invariant, sample by sample up to its publish (spec/40_engine.md R66 to R69,
R73, R74). -/

namespace Sys2Proof.Machine

variable {s : State} {c : Config} {v : Nat}

theorem toNat_ofNat_of_inRange (hc : c.Admitted) (hv : v < 2 ^ c.sw) : (BitVec.ofNat 64 v).toNat = v :=
  Nat.mod_eq_of_lt (hv.trans (Nat.pow_lt_pow_right Nat.one_lt_two ((Config.sw_lt_w hc).trans_le (Config.w_le hc))))

theorem sampleValue_ofNat (hc : c.Admitted) (hv : v < 2 ^ c.sw) : sampleValue c (BitVec.ofNat 64 v) = v := by
  rw [sampleValue, toNat_ofNat_of_inRange hc hv, Nat.mod_eq_of_lt hv]

/-- R60's `sample v` steps to the effect of `SAMPLE`. -/
theorem step_sampleLine {rest : List Event} (hc : s.cfg.Admitted) (hv : v < 2 ^ s.cfg.sw)
    (hin : s.inputs = .transaction (sampleLine v) :: rest) :
    step s = exec (.sample (BitVec.ofNat 64 v)) { s with inputs := rest } :=
  step_accepted hc hin (decode_sample hc ((toNat_ofNat_of_inRange hc hv).trans_lt hv) .producer)

end Sys2Proof.Machine

namespace Sys2Proof.Safety

open Sys2Proof.Machine

variable {c : Config} {s : State} {n : Nat} {ws : List Nat}

/-- The state holds a window in progress with the samples `ws`, and its LO stands as after `n` samples.  This is what
`Follows` says of the window, without the mailbox, which a state of the invariant may hold from any window before. -/
structure InWindow (n : Nat) (ws : List Nat) (s : State) : Prop where
  admitted : s.cfg.Admitted
  samples_lt : ∀ v ∈ ws, v < 2 ^ s.cfg.sw
  lo : LoAt s.cfg.p n s.regs
  place_eq : n % s.cfg.windowLength = ws.length
  scnt_eq : s.regs.scnt = ws.length
  accExc_eq : sintW s.cfg.w s.regs.accExc = excSum s.cfg ws
  accBg_eq : sintW s.cfg.w s.regs.accBg = bgSum s.cfg ws

/-- The LO of a state of the invariant stands where some number of samples leaves it (R34 items 2 to 4): the window's own
before the first flip, and a window more once the output follows the phase. -/
theorem Inv.exists_loAt (hi : Inv s) :
    ∃ n, n % s.cfg.windowLength = s.regs.scnt ∧ LoAt s.cfg.p n s.regs := by
  have hphase : ∀ n, n % s.cfg.windowLength = s.regs.scnt →
      s.regs.pcnt = n % s.cfg.p ∧ s.regs.exciting = (n / s.cfg.p % 2 == 1) := by
    intro n hn
    rw [hi.pcnt_eq, hi.exciting_eq, ← hn, mod_window_mod_p hi.admitted, mod_window_div_p_parity hi.admitted]
    exact ⟨rfl, rfl⟩
  rcases hi.modOut_eq with hfollows | ⟨hout, hlt, -⟩
  · have hn : (s.cfg.windowLength + s.regs.scnt) % s.cfg.windowLength = s.regs.scnt := by
      rw [Nat.add_mod_left, Nat.mod_eq_of_lt hi.scnt_lt]
    have hle : s.cfg.p ≤ s.cfg.windowLength :=
      Nat.le_of_dvd (Config.windowLength_pos _) (Config.half_period_dvd hi.admitted)
    obtain ⟨hpcnt, hexc⟩ := hphase _ hn
    exact ⟨_, hn, hpcnt, hexc, by rw [if_neg (by omega), hfollows]⟩
  · have hn := Nat.mod_eq_of_lt hi.scnt_lt
    obtain ⟨hpcnt, hexc⟩ := hphase _ hn
    exact ⟨_, hn, hpcnt, hexc, by rw [if_pos hlt, hout, Config.modReset]⟩

/-- A state of the invariant at a window's start. -/
theorem Inv.inWindow_nil (hi : Inv s) (h0 : s.regs.scnt = 0) : ∃ n, InWindow n [] s := by
  obtain ⟨n, hn, hlo⟩ := hi.exists_loAt
  have hexc := hi.accExc_le
  have hbg := hi.accBg_le
  rw [h0, excCount, Nat.mul_zero, Nat.le_zero] at hexc
  rw [h0, bgCount, Nat.mul_zero, Nat.le_zero] at hbg
  exact ⟨n, {
    admitted := hi.admitted
    samples_lt := by simp
    lo := hlo
    place_eq := by simp [hn, h0]
    scnt_eq := by simp [h0]
    accExc_eq := by simp [sintW, uintW, hexc]
    accBg_eq := by simp [sintW, uintW, hbg] }⟩

theorem InWindow.length_lt (hw : InWindow n ws s) : ws.length < s.cfg.windowLength :=
  hw.place_eq ▸ Nat.mod_lt n (Config.windowLength_pos _)

theorem InWindow.counted_sums (hw : InWindow n ws s) (raw : Word) :
    sintW s.cfg.w (classify s.cfg raw s.regs).accExc = excSum s.cfg (ws ++ [sampleValue s.cfg raw]) ∧
    sintW s.cfg.w (classify s.cfg raw s.regs).accBg = bgSum s.cfg (ws ++ [sampleValue s.cfg raw]) := by
  refine classify_sums hw.admitted hw.length_lt hw.samples_lt ?_ hw.accExc_eq hw.accBg_eq
  rw [← hw.place_eq, mod_window_div_p_parity hw.admitted, hw.lo.exciting_eq]

/-- Inside a window a sample joins it. -/
theorem InWindow.sample_inside (hw : InWindow n ws s) (raw : Word) (hin : ws.length + 1 ≠ s.cfg.windowLength) :
    ∃ t, exec (.sample raw) s = .next t ∧ t.inputs = s.inputs ∧ t.cfg = s.cfg ∧
      InWindow (n + 1) (ws ++ [sampleValue s.cfg raw]) t := by
  have hL := Config.windowLength_pos s.cfg
  have hlo : LoAt s.cfg.p n (countSample (classify s.cfg raw s.regs)) :=
    ⟨by simpa using hw.lo.pcnt_eq, by simpa using hw.lo.exciting_eq, by simpa using hw.lo.modOut_eq⟩
  have hn : (n + 1) % s.cfg.windowLength ≠ 0 := by rwa [ne_eq, ← mod_add_one_eq_iff hL, hw.place_eq]
  obtain ⟨hexc, hbg⟩ := hw.counted_sums raw
  obtain ⟨kexc, kbg, kscnt, -⟩ := loAdvance_keeps (p := s.cfg.p) (r := countSample (classify s.cfg raw s.regs))
  refine ⟨_, exec_sample_inside (by rwa [hw.scnt_eq]), rfl, rfl, ?_⟩
  exact {
    admitted := hw.admitted
    samples_lt := by
      intro v hv
      rcases List.mem_append.1 hv with hv | hv
      · exact hw.samples_lt v hv
      · exact List.mem_singleton.1 hv ▸ sampleValue_lt s.cfg raw
    lo := hlo.advance (Config.p_pos hw.admitted)
    place_eq := by simp [mod_add_one_of_ne_zero hL hn, hw.place_eq]
    scnt_eq := by simp [kscnt, hw.scnt_eq]
    accExc_eq := by simp [kexc, hexc]
    accBg_eq := by simp [kbg, hbg] }

/-- The last sample of a window publishes its two sums (R69). -/
theorem InWindow.sample_boundary (hw : InWindow n ws s) (raw : Word) (hend : ws.length + 1 = s.cfg.windowLength) :
    ∃ t, exec (.sample raw) s = .next t ∧ t.inputs = s.inputs ∧
      sintW s.cfg.w t.regs.pubExc = excSum s.cfg (ws ++ [sampleValue s.cfg raw]) ∧
      sintW s.cfg.w t.regs.pubBg = bgSum s.cfg (ws ++ [sampleValue s.cfg raw]) ∧ t.readyO = true := by
  obtain ⟨hexc, hbg⟩ := hw.counted_sums raw
  refine ⟨_, exec_sample_boundary (by rw [hw.scnt_eq, hend]), rfl, ?_, ?_, ?_⟩
  · simp [loResync_keeps, loAdvance_keeps, hexc]
  · simp [loResync_keeps, loAdvance_keeps, hbg]
  · simp [loResync_keeps, loAdvance_keeps]

/-- The rest of a window, with nothing between its samples, publishes the window's two sums. -/
theorem InWindow.run_rest (vs : List Nat) {rest : List Event} (hw : InWindow n ws s)
    (hvs : ∀ v ∈ vs, v < 2 ^ s.cfg.sw) (hlen : ws.length + vs.length = s.cfg.windowLength)
    (hin : s.inputs = vs.map (fun v => .transaction (sampleLine v)) ++ rest) :
    ∃ t, run vs.length s = .next t ∧ t.inputs = rest ∧
      sintW s.cfg.w t.regs.pubExc = excSum s.cfg (ws ++ vs) ∧ sintW s.cfg.w t.regs.pubBg = bgSum s.cfg (ws ++ vs) ∧
      t.readyO = true := by
  induction vs generalizing n ws s with
  | nil => exact absurd hlen hw.length_lt.ne
  | cons v vs ih =>
    have hv : v < 2 ^ s.cfg.sw := hvs v List.mem_cons_self
    have hstep := step_sampleLine hw.admitted hv hin
    have hw' : InWindow n ws { s with inputs := vs.map (fun v => .transaction (sampleLine v)) ++ rest } := { hw with }
    have hval : sampleValue s.cfg (BitVec.ofNat 64 v) = v := sampleValue_ofNat hw.admitted hv
    rw [List.length_cons] at hlen ⊢
    by_cases hend : ws.length + 1 = s.cfg.windowLength
    · obtain rfl : vs = [] := List.eq_nil_of_length_eq_zero (by omega)
      obtain ⟨t, hexec, hrest, hexc, hbg, hready⟩ := hw'.sample_boundary (BitVec.ofNat 64 v) hend
      rw [hval] at hexc hbg
      exact ⟨t, run_succ (hstep.trans hexec), hrest, hexc, hbg, hready⟩
    · obtain ⟨t, hexec, hrest, hcfg, ht⟩ := hw'.sample_inside (BitVec.ofNat 64 v) hend
      have hcfg : t.cfg = s.cfg := hcfg
      have hlen' : (ws ++ [v]).length + vs.length = s.cfg.windowLength := by
        rw [List.length_append, List.length_singleton]
        omega
      rw [hval] at ht
      rw [run_succ (hstep.trans hexec), List.append_cons, ← hcfg]
      exact ih ht (hcfg ▸ fun u hu => hvs u (List.mem_cons_of_mem v hu)) (hcfg ▸ hlen') hrest

/-- Equal samples add up to their value times the number of places their bucket has (R73, R74). -/
theorem bucket_sums_replicate (c : Config) (v k : Nat) :
    excSum c (List.replicate k v) = v * excCount c.p k ∧ bgSum c (List.replicate k v) = v * bgCount c.p k := by
  induction k with
  | zero => exact ⟨rfl, rfl⟩
  | succ k ih =>
    obtain ⟨hexc, hbg⟩ := ih
    rw [List.replicate_succ', excSum_snoc, bgSum_snoc, List.length_replicate, hexc, hbg, excCount, bgCount, Nat.mul_add,
      Nat.mul_add]
    rcases Nat.mod_two_eq_zero_or_one (k / c.p) with hpar | hpar <;> simp [hpar]

/-- R74: each bucket of a constant window is half of `v * L`. -/
theorem bucket_sums_constant_window (hc : c.Admitted) (v : Nat) :
    2 * excSum c (List.replicate c.windowLength v) = v * c.windowLength ∧
    2 * bgSum c (List.replicate c.windowLength v) = v * c.windowLength := by
  obtain ⟨hexc, hbg⟩ := bucket_sums_replicate c v c.windowLength
  rw [hexc, hbg, excCount_windowLength hc, bgCount_windowLength hc, Nat.mul_left_comm,
    Nat.mul_div_cancel' (two_dvd_windowLength hc)]
  exact ⟨rfl, rfl⟩

end Sys2Proof.Safety
end

section
namespace Sys2Proof.Proofs

open Sys2Proof.Machine Sys2Proof.Safety

/-- Settles O55: the window's run publishes its two sums (`InWindow.run_rest`), and half of a window's places are in each
bucket (`bucket_sums_constant_window`). -/
theorem constantInputFillsBothBuckets : Obligations.ConstantInputFillsBothBuckets := by
  unfold Obligations.ConstantInputFillsBothBuckets
  intro s v rest hi h0 hv
  rw [← Config.windowLength]
  obtain ⟨n, hw⟩ := hi.inWindow_nil h0
  have hw' : InWindow n []
      { s with inputs := List.replicate s.cfg.windowLength (.transaction (sampleLine v)) ++ rest } := { hw with }
  obtain ⟨t, hrun, hrest, hexc, hbg, hready⟩ := hw'.run_rest (List.replicate s.cfg.windowLength v)
    (fun u hu => List.eq_of_mem_replicate hu ▸ hv) (by simp) (by rw [List.map_replicate])
  obtain ⟨hexc2, hbg2⟩ := bucket_sums_constant_window hi.admitted v
  rw [List.length_replicate] at hrun
  rw [List.nil_append] at hexc hbg
  refine ⟨t, hrun, ?_, ?_, hready, hrest⟩
  · rw [hexc]
    exact_mod_cast hexc2
  · rw [hbg]
    exact_mod_cast hbg2

end Sys2Proof.Proofs
end

section
/-! SUPPORT. What a sample does to the LO and the pin, and the flips and pin transitions of a run from reset
(spec/41_lo_generator.md R75 to R80). -/

namespace Sys2Proof.Machine

variable {s t : State} {i : Instr} {out : Bool}

/-! ## The set events of one step (R76) -/

/-- The sub-step left the output level `out` alone and reports nothing, or it commanded the output and reports the level
commanded last. -/
def LoResult.Reports (out : Bool) (a : LoResult) : Prop :=
  (a.setEvents = [] ∧ a.modSet = false ∧ a.regs.modOut = out) ∨
  (a.setEvents.getLast? = some a.regs.modOut ∧ a.modSet = true ∧ a.modLevel = a.regs.modOut)

theorem loAdvance_reports (p : Nat) (r : Regs) : (loAdvance p r).Reports r.modOut := by
  by_cases hflip : r.pcnt + 1 = p
  · rw [loAdvance_flip hflip]
    exact .inr ⟨rfl, rfl, rfl⟩
  · rw [loAdvance_count hflip]
    exact .inl ⟨rfl, rfl, rfl⟩

theorem LoResult.Reports.resync {a : LoResult} (h : a.Reports out) : (loResync a).Reports out := by
  cases hx : a.regs.exciting with
  | true =>
    rw [loResync_excitation hx]
    exact .inr ⟨List.getLast?_concat, rfl, rfl⟩
  | false =>
    rw [loResync_background hx]
    exact h

theorem closeSample_reports (c : Config) (r : Regs) : (closeSample c r).Reports r.modOut := by
  by_cases hfull : r.scnt = c.windowLength
  · rw [closeSample_boundary hfull]
    exact (loAdvance_reports c.p (publish r)).resync
  · rw [closeSample_inside hfull]
    exact loAdvance_reports c.p r

/-- Only `SAMPLE` commands the output. -/
theorem exec_of_not_sample (hs : ∀ raw, i ≠ .sample raw) (h : exec i s = .next t) :
    t.setEvents = [] ∧ t.regs.modOut = s.regs.modOut ∧ ∀ pub ms ml, t.rsp ≠ some (.sample pub ms ml) := by
  cases i with
  | sample raw => exact absurd rfl (hs raw)
  | nop | poll | consume | peek | sshr =>
    cases h
    exact ⟨rfl, rfl, nofun⟩

/-- A command leaves the output alone and reports no set event, or it reports the level that its last set event commanded. -/
theorem exec_commands_output (h : exec i s = .next t) :
    (t.setEvents = [] ∧ t.regs.modOut = s.regs.modOut ∧ ∀ pub ml, t.rsp ≠ some (.sample pub true ml)) ∨
    (t.setEvents.getLast? = some t.regs.modOut ∧ ∃ pub, t.rsp = some (.sample pub true t.regs.modOut)) := by
  by_cases hs : ∃ raw, i = .sample raw
  · obtain ⟨raw, rfl⟩ := hs
    cases h
    rcases closeSample_reports s.cfg (countSample (classify s.cfg raw s.regs)) with
      ⟨hevs, hset, hout⟩ | ⟨hevs, hset, hlev⟩
    · exact .inl ⟨hevs, by simpa using hout, by simp [hset]⟩
    · exact .inr ⟨hevs, by simp [hset, hlev]⟩
  · obtain ⟨hevs, hout, hrsp⟩ := exec_of_not_sample (fun raw hi => hs ⟨raw, hi⟩) h
    exact .inl ⟨hevs, hout, fun pub ml => hrsp pub true ml⟩

/-! ## The advance of one sample (R75, R78) -/

/-- Where the last sample of a window ends an Excitation half-cycle, `SAMPLE` does to the LO what the advance does. -/
theorem exec_sample_lo (raw : Word)
    (hlast : s.regs.scnt + 1 = s.cfg.windowLength → s.regs.pcnt + 1 = s.cfg.p ∧ s.regs.exciting = true) :
    let a := loAdvance s.cfg.p s.regs
    ∃ t pub, exec (.sample raw) s = .next t ∧ t.regs.exciting = a.regs.exciting ∧ t.regs.modOut = a.regs.modOut ∧
      t.regs.pcnt = a.regs.pcnt ∧ t.setEvents = a.setEvents ∧ t.rsp = some (.sample pub a.modSet a.modLevel) := by
  by_cases hfull : s.regs.scnt + 1 = s.cfg.windowLength
  · obtain ⟨hflip, hx⟩ := hlast hfull
    refine ⟨_, true, exec_sample_boundary hfull, ?_⟩
    rw [loAdvance_flip hflip, loAdvance_flip (by simpa using hflip), loResync_background (by simpa using hx)]
    simp [hx]
  · refine ⟨_, false, exec_sample_inside hfull, ?_⟩
    by_cases hflip : s.regs.pcnt + 1 = s.cfg.p
    · rw [loAdvance_flip hflip, loAdvance_flip (by simpa using hflip)]
      simp
    · rw [loAdvance_count hflip, loAdvance_count (by simpa using hflip)]
      simp

end Sys2Proof.Machine

namespace Sys2Proof.Safety

open Sys2Proof.Machine

variable {c : Config} {h : History} {s t : State} {r r' : Regs} {p n m : Nat}

/-- A whole number of full cycles fits a window (C3), so its last sample ends an Excitation half-cycle. -/
theorem LoAt.last_sample (hc : c.Admitted) (h : LoAt c.p n r) (hn : (n + 1) % c.windowLength = 0) :
    r.pcnt + 1 = c.p ∧ r.exciting = true := by
  have hflip : r.pcnt + 1 = c.p := by
    rw [h.pcnt_eq, mod_add_one_eq_iff (Config.p_pos hc), ← mod_window_mod_p hc, hn, Nat.zero_mod]
  obtain ⟨hx, -⟩ := (h.advance (Config.p_pos hc)).window_start hc hn
  rw [loAdvance_flip hflip] at hx
  exact ⟨hflip, by simpa using hx⟩

theorem Inv.last_sample (hi : Inv s) (hfull : s.regs.scnt + 1 = s.cfg.windowLength) :
    s.regs.pcnt + 1 = s.cfg.p ∧ s.regs.exciting = true := by
  obtain ⟨n, hn, hlo⟩ := hi.exists_loAt
  refine hlo.last_sample hi.admitted ?_
  rw [← mod_add_one_eq_iff (Config.windowLength_pos _), hn, hfull]

theorem Follows.last_sample (hf : Follows h s) (hfull : s.regs.scnt + 1 = s.cfg.windowLength) :
    s.regs.pcnt + 1 = s.cfg.p ∧ s.regs.exciting = true := by
  refine hf.loAt.last_sample hf.admitted ?_
  rw [← mod_add_one_eq_iff (Config.windowLength_pos _), ← hf.scnt_eq, hfull]

/-! ## Flips and pin transitions by the sample count (R79, R80) -/

/-- The levels of the set events of the first `k` flips since a reset: they alternate, high first (R79). -/
def flipLevels (k : Nat) : List Bool := (List.range k).map fun i => i % 2 == 0

theorem flipLevels_succ (k : Nat) : flipLevels (k + 1) = flipLevels k ++ [k % 2 == 0] := by
  simp [flipLevels, List.range_succ]

theorem length_flipLevels (k : Nat) : (flipLevels k).length = k := by simp [flipLevels]

/-- The pin's level after `k` flips since a reset: the reset level at none, and then the phase (R30, R80). -/
def pinLevel (k : Nat) : Bool := k == 0 || k % 2 == 1

/-- R80: the first flip does not move the pin and every later one does. -/
theorem pinLevel_succ_eq_iff (k : Nat) : pinLevel (k + 1) = pinLevel k ↔ k = 0 := by
  rcases Nat.eq_zero_or_pos k with rfl | hk
  · decide
  · rcases Nat.mod_two_eq_zero_or_one k with hpar | hpar <;> simp [pinLevel, hpar, Nat.add_mod, hk.ne']

theorem LoAt.modOut_eq_pinLevel (hp : 0 < p) (h : LoAt p n r) : r.modOut = pinLevel (n / p) := by
  rw [h.modOut_eq, h.exciting_eq, pinLevel]
  by_cases hn : n < p
  · simp [hn, Nat.div_eq_of_lt hn, Config.modReset]
  · have hk : n / p ≠ 0 := (Nat.div_pos (Nat.not_lt.1 hn) hp).ne'
    simp [hn, hk]

/-- The advance emits the event of the flip that the sample count asks for, and none otherwise. -/
theorem LoAt.flipLevels_advance (hp : 0 < p) (h : LoAt p n r) :
    flipLevels (n / p) ++ (loAdvance p r).setEvents = flipLevels ((n + 1) / p) := by
  by_cases hflip : (n + 1) % p = 0
  · rw [loAdvance_flip (by rw [h.pcnt_eq, mod_add_one_eq_iff hp, hflip]), Nat.succ_div_of_mod_eq_zero hflip,
      flipLevels_succ, h.exciting_eq]
    rcases Nat.mod_two_eq_zero_or_one (n / p) with hpar | hpar <;> simp [hpar]
  · rw [loAdvance_count (by rwa [h.pcnt_eq, ne_eq, mod_add_one_eq_iff hp]), Nat.succ_div_of_mod_ne_zero hflip]
    simp

/-- A flip moves the pin exactly when a flip came before it, and no sample without a flip moves it (R80). -/
theorem LoAt.pin_transition (hp : 0 < p) (h : LoAt p n r) (h' : LoAt p m r') (hm : m = n ∨ m = n + 1) :
    n / p - 1 + (if r'.modOut = r.modOut then 0 else 1) = m / p - 1 := by
  rw [h.modOut_eq_pinLevel hp, h'.modOut_eq_pinLevel hp]
  have hk : m / p = n / p ∨ m / p = n / p + 1 := by
    rcases hm with rfl | rfl
    · exact .inl rfl
    · rw [Nat.succ_div]
      split
      · exact .inr rfl
      · exact .inl rfl
  generalize n / p = k at hk ⊢
  rcases hk with hk | hk
  · simp [hk]
  · rw [hk]
    simp only [pinLevel_succ_eq_iff]
    split <;> omega

/-! ## Commands, events and runs -/

theorem command_samples_of_not_sample (c : Config) (h : History) {i : Instr} (hs : ∀ raw, i ≠ .sample raw) :
    (h.command c i).samples = h.samples := by
  cases i with
  | sample raw => exact absurd rfl (hs raw)
  | nop | poll | consume | peek | sshr => rfl

theorem command_samples_length (c : Config) (h : History) (i : Instr) :
    (h.command c i).samples.length = h.samples.length ∨
    (h.command c i).samples.length = h.samples.length + 1 := by
  by_cases hs : ∃ raw, i = .sample raw
  · obtain ⟨raw, rfl⟩ := hs
    exact .inr (by simp [History.command])
  · rw [command_samples_of_not_sample c h fun raw hi => hs ⟨raw, hi⟩]
    exact .inl rfl

theorem event_samples_length (c : Config) (h : History) (tx : Transaction) :
    (h.event c (.transaction tx)).samples.length = h.samples.length ∨
    (h.event c (.transaction tx)).samples.length = h.samples.length + 1 := by
  cases hd : decode c tx with
  | error why =>
    rw [event_refused hd]
    exact .inl rfl
  | ok i =>
    rw [event_accepted hd]
    exact command_samples_length c h i

theorem Follows.exec_flipLevels {i : Instr} (hf : Follows h s) (hexec : exec i s = .next t) :
    flipLevels (h.samples.length / s.cfg.p) ++ t.setEvents =
      flipLevels ((h.command s.cfg i).samples.length / s.cfg.p) := by
  by_cases hs : ∃ raw, i = .sample raw
  · obtain ⟨raw, rfl⟩ := hs
    obtain ⟨u, pub, hexec', -, -, -, hevs, -⟩ := exec_sample_lo raw hf.last_sample
    obtain rfl : t = u := Host.Outcome.next.inj (hexec.symm.trans hexec')
    rw [hevs, hf.loAt.flipLevels_advance (Config.p_pos hf.admitted)]
    simp [History.command]
  · have hs' : ∀ raw, i ≠ .sample raw := fun raw hi => hs ⟨raw, hi⟩
    obtain ⟨hevs, -⟩ := exec_of_not_sample hs' hexec
    rw [hevs, List.append_nil, command_samples_of_not_sample _ _ hs']

theorem Follows.step_flipLevels {tx : Transaction} {rest : List Event} (hf : Follows h s)
    (hi : s.inputs = .transaction tx :: rest) (hstep : step s = .next t) :
    flipLevels (h.samples.length / s.cfg.p) ++ t.setEvents =
      flipLevels ((h.event s.cfg (.transaction tx)).samples.length / s.cfg.p) := by
  cases hd : decode s.cfg tx with
  | error why =>
    rw [step_refused hf.admitted hi hd] at hstep
    cases hstep
    simp [event_refused hd]
  | ok i =>
    have hf' : Follows h { s with inputs := rest } := hf.congr rfl rfl
    rw [step_accepted hf.admitted hi hd] at hstep
    rw [event_accepted hd]
    exact hf'.exec_flipLevels hstep

/-- A run without a reset emits the set events of the flips its samples add, and moves the pin at each of them but the
first since the reset. -/
theorem Follows.run_flips (es : List Event) {rest : List Event} (hf : Follows h s) (hi : s.inputs = es ++ rest)
    (hes : Event.reset ∉ es) :
    let n := h.samples.length
    let m := (es.foldl (History.event s.cfg) h).samples.length
    flipLevels (n / s.cfg.p) ++ setEventsOver es.length s = flipLevels (m / s.cfg.p) ∧
    n / s.cfg.p - 1 + pinTransitions es.length s = m / s.cfg.p - 1 := by
  induction es generalizing h s with
  | nil => exact ⟨List.append_nil _, rfl⟩
  | cons e es ih =>
    obtain ⟨hne, hes'⟩ := not_or.1 (mt List.mem_cons.2 hes)
    obtain ⟨t, hstep, hin, hcfg, hft⟩ := hf.step_next hi
    cases e with
    | reset => exact absurd rfl hne
    | transaction tx =>
      have hevs := hf.step_flipLevels hi hstep
      have hpin := hf.loAt.pin_transition (Config.p_pos hf.admitted) (hcfg ▸ hft.loAt)
        (event_samples_length s.cfg h tx)
      obtain ⟨hrun, hpins⟩ := ih hft hin hes'
      rw [hcfg] at hrun hpins
      refine ⟨?_, ?_⟩
      · rw [List.length_cons, setEventsOver_succ hstep, ← List.append_assoc, hevs]
        exact hrun
      · rw [List.length_cons, pinTransitions_succ hstep, ← Nat.add_assoc]
        exact hpin ▸ hpins

/-- The flips and the pin transitions of a run from reset. -/
theorem run_from_reset_flips (hc : c.Admitted) {es : List Event} (rest : List Event) (hes : Event.reset ∉ es) :
    setEventsOver es.length { State.resetWith c with inputs := es ++ rest } =
      flipLevels ((historyOf c es).samples.length / c.p) ∧
    pinTransitions es.length { State.resetWith c with inputs := es ++ rest } =
      (historyOf c es).samples.length / c.p - 1 := by
  have hstart : Follows History.start { State.resetWith c with inputs := es ++ rest } := follows_start hc rfl
  simpa [History.start, flipLevels, historyOf] using hstart.run_flips es rfl hes

end Sys2Proof.Safety
end

section
namespace Sys2Proof.Proofs

open Sys2Proof.Machine Sys2Proof.Safety

/-- Settles O27: the whole effect (`sampleRunsItsSteps`) in a step that publishes, by the phase after the advance. -/
theorem resyncForcesTheWindowStart : Obligations.ResyncForcesTheWindowStart := by
  unfold Obligations.ResyncForcesTheWindowStart
  intro s raw hfull
  refine ⟨_, sampleRunsItsSteps.2 s raw, ?_⟩
  by_cases hflip : s.regs.pcnt + 1 = s.cfg.p
  · simp [hfull, hflip]
  · cases s.regs.exciting <;> simp [hfull, hflip]

/-- Settles O26: under the invariant a sample does to the LO what the advance does (`exec_sample_lo`), also where it
publishes. -/
theorem loAdvancesOnEverySample : Obligations.LoAdvancesOnEverySample := by
  unfold Obligations.LoAdvancesOnEverySample
  intro s raw hi
  obtain ⟨t, pub, hexec, hx, hout, hcount, hevs, hrsp⟩ := exec_sample_lo raw hi.last_sample
  refine ⟨t, hexec, fun hflip => ?_, fun hflip => ?_⟩
  · rw [loAdvance_flip hflip] at hx hout hcount hevs hrsp
    exact ⟨hx, hout.trans hx.symm, hcount, hout ▸ hevs, pub, hout ▸ hrsp⟩
  · rw [loAdvance_count hflip] at hx hout hcount hevs hrsp
    exact ⟨hx, hout, hcount, hevs, pub, hrsp⟩

/-- Settles O28: the last sample of a window ends an Excitation half-cycle (`Inv.last_sample`), so the advance itself leaves
the LO at a window's start. -/
theorem resyncIsANoOp : Obligations.ResyncIsANoOp := by
  unfold Obligations.ResyncIsANoOp
  intro s raw hi hfull
  obtain ⟨hflip, hx⟩ := hi.last_sample hfull
  dsimp only
  rw [loAdvance_flip (by simpa using hflip)]
  exact loResync_of_window_start (by simpa using hx) rfl

/-- Settles O39: a reset and a refusal emit nothing, and a command's set events are reported (`exec_commands_output`). -/
theorem outputIsCommandedOnlyBySetEvents : Obligations.OutputIsCommandedOnlyBySetEvents := by
  unfold Obligations.OutputIsCommandedOnlyBySetEvents
  intro s t hstep
  obtain ⟨-, ⟨rest, hi, rfl⟩ | ⟨tx, rest, why, hi, -, rfl⟩ | ⟨tx, rest, i, hi, -, hexec⟩⟩ := step_cases hstep
  · simp [hi]
  · simp [hi]
  · rcases exec_commands_output hexec with ⟨hevs, hout, hrsp⟩ | ⟨hevs, hrsp⟩
    · simp [hi, hevs, hout, hrsp]
    · have hne : t.setEvents ≠ [] := by
        intro hnil
        simp [hnil] at hevs
      simp [hi, hne, hevs, hrsp]

/-- Settles O51: each flip of the run emits the next level (`run_from_reset_flips`), and the run's last state follows its
history. -/
theorem loFlipsOnceEveryHalfCycle : Obligations.LoFlipsOnceEveryHalfCycle := by
  unfold Obligations.LoFlipsOnceEveryHalfCycle
  intro c es rest hc hes
  obtain ⟨t, hrun, rfl, -, hf⟩ := run_from_reset_follows hc es rest
  obtain ⟨hevs, -⟩ := run_from_reset_flips hc rest hes
  exact ⟨hevs, t, hrun, by simp [hf.exciting_eq]⟩

/-- Settles O52: the run's flips and pin transitions counted (`run_from_reset_flips`). -/
theorem firstFlipDoesNotMoveThePin : Obligations.FirstFlipDoesNotMoveThePin := by
  unfold Obligations.FirstFlipDoesNotMoveThePin
  intro c es rest hc hes
  obtain ⟨hevs, hpins⟩ := run_from_reset_flips hc rest hes
  exact ⟨(congrArg List.length hevs).trans (length_flipLevels _), hpins⟩

end Sys2Proof.Proofs
end

section
/-! SUPPORT. The scaler in numbers: its pattern (spec/42_scaler.md R82), and that its value is the operand's divided toward
zero (R84), from which the negation and the corner cases follow (R85, R86). -/

namespace Sys2Proof.Machine

variable {w n : Nat} {x : Word} {v b : Int}

/-! ## Division rounded toward zero -/

/-- The quotient lies between 0 and the dividend. -/
theorem tdiv_between {lo hi : Int} (hb : 0 ≤ b) (hlo0 : lo ≤ 0) (hhi0 : 0 < hi) (hlo : lo ≤ v) (hhi : v < hi) :
    lo ≤ v.tdiv b ∧ v.tdiv b < hi := by
  rcases Int.le_total 0 v with hv | hv
  · have h0 := Int.tdiv_nonneg hv hb
    have hle := Int.tdiv_le_self b hv
    omega
  · have h0 := Int.tdiv_nonneg (Int.neg_nonneg_of_nonpos hv) hb
    have hle := Int.tdiv_le_self b (Int.neg_nonneg_of_nonpos hv)
    rw [Int.neg_tdiv] at h0 hle
    omega

theorem tdiv_eq_zero_of_between (hlo : -b < v) (hhi : v < b) : v.tdiv b = 0 := by
  rcases Int.le_total 0 v with hv | hv
  · exact Int.tdiv_eq_zero_of_lt hv hhi
  · rw [← Int.neg_eq_zero, ← Int.neg_tdiv]
    exact Int.tdiv_eq_zero_of_lt (Int.neg_nonneg_of_nonpos hv) (by omega)

/-- A negative dividend with a remainder is rounded up, so toward zero (R86's last row). -/
theorem tdiv_eq_ediv_add_one (hb : 0 < b) (hv : v < 0) (hd : ¬ b ∣ v) : v.tdiv b = v / b + 1 := by
  rw [Int.tdiv_eq_ediv, if_neg (by simp [hd, hv]), Int.sign_eq_one_of_pos hb]

/-! ## The scaler's pattern -/

/-- R82's last negation, modulo `2^W`. -/
theorem wrapW_zero_sub_toNat (hw : w ≤ 64) {m : Nat} (hm : m ≤ 2 ^ w) :
    (wrapW w (0 - (m : Int))).toNat = (2 ^ w - m) % 2 ^ w := by
  have hmod : (0 - (m : Int)) % (2 ^ w : Nat) = ((2 ^ w - m : Nat) : Int) % (2 ^ w : Nat) := by
    rw [Nat.cast_sub hm, ← Int.add_emod_right, zero_sub, neg_add_eq_sub]
  rw [wrapW_toNat hw, hmod, ← Int.natCast_mod, Int.toNat_natCast]

theorem scaleW_toNat_nonneg (h1 : 1 ≤ w) (hw : w ≤ 64) (h : uintW w x < 2 ^ (w - 1)) :
    (scaleW w x n).toNat = uintW w x / 2 ^ n := by
  rw [scaleW_nonneg h1 h]
  exact wrapW_toNat_of_lt hw ((Nat.div_le_self _ _).trans_lt (uintW_lt w x))

theorem scaleW_toNat_neg (h1 : 1 ≤ w) (hw : w ≤ 64) (h : 2 ^ (w - 1) ≤ uintW w x) :
    (scaleW w x n).toNat = (2 ^ w - (2 ^ w - uintW w x) / 2 ^ n) % 2 ^ w := by
  rw [scaleW_neg h1 hw h]
  exact wrapW_zero_sub_toNat hw ((Nat.div_le_self _ _).trans (Nat.sub_le _ _))

/-! ## The scaler's value -/

/-- Both cases of the scaler at once: the quotient of the signed value, rounded toward zero, in `W` bits (R84). -/
theorem scaleW_eq_wrapW_tdiv (h1 : 1 ≤ w) (hw : w ≤ 64) : scaleW w x n = wrapW w ((sintW w x).tdiv (2 ^ n)) := by
  have hlt := uintW_lt w x
  by_cases h : uintW w x < 2 ^ (w - 1)
  · have hsint : sintW w x = (uintW w x : Nat) := if_pos h
    rw [scaleW_nonneg h1 h, hsint, Int.ofNat_tdiv, Nat.cast_pow, Nat.cast_ofNat]
  · have hsint : sintW w x = -((2 ^ w - uintW w x : Nat) : Int) := by
      rw [sintW, if_neg h]
      omega
    rw [scaleW_neg h1 hw (Nat.not_lt.1 h), hsint, Int.neg_tdiv, zero_sub, Int.ofNat_tdiv, Nat.cast_pow, Nat.cast_ofNat]

theorem sintW_scaleW (h1 : 1 ≤ w) (hw : w ≤ 64) : sintW w (scaleW w x n) = (sintW w x).tdiv (2 ^ n) := by
  obtain ⟨hlo, hhi⟩ := sintW_range h1 x
  have hhalf := Nat.two_pow_pos (w - 1)
  obtain ⟨hlo', hhi'⟩ := tdiv_between (b := 2 ^ n) (by positivity) (by omega) (by omega) hlo hhi
  rw [scaleW_eq_wrapW_tdiv h1 hw, sintW_wrapW h1 hw hlo' hhi']

/-- R86's rows that give 0: the operand's magnitude is below the divisor. -/
theorem sintW_scaleW_eq_zero (h1 : 1 ≤ w) (hw : w ≤ 64) (hlo : -(2 ^ n : Int) < sintW w x)
    (hhi : sintW w x < (2 ^ n : Int)) : sintW w (scaleW w x n) = 0 := by
  rw [sintW_scaleW h1 hw, tdiv_eq_zero_of_between hlo hhi]

/-- A shift by the width or more: every operand's magnitude is below the divisor. -/
theorem sintW_between_of_width_le (h1 : 1 ≤ w) (h : w ≤ n) (x : Word) :
    -(2 ^ n : Int) < sintW w x ∧ sintW w x < (2 ^ n : Int) := by
  obtain ⟨hlo, hhi⟩ := sintW_range h1 x
  have hlt : 2 ^ (w - 1) < 2 ^ n := Nat.pow_lt_pow_right Nat.one_lt_two (by omega)
  zify at hlt hlo hhi
  omega

theorem scaleW_eq_zero_of_width_le (h1 : 1 ≤ w) (hw : w ≤ 64) (h : w ≤ n) : scaleW w x n = 0#64 := by
  obtain ⟨hlo, hhi⟩ := sintW_between_of_width_le h1 h x
  rw [scaleW_eq_wrapW_tdiv h1 hw, tdiv_eq_zero_of_between hlo hhi]
  simp [wrapW]

/-- The scaler divides the most negative value exactly. -/
theorem neg_half_tdiv_two_pow (h : n ≤ w - 1) : (-(2 ^ (w - 1) : Int)).tdiv (2 ^ n) = -(2 ^ (w - 1 - n) : Int) := by
  obtain ⟨k, hk⟩ := Nat.exists_eq_add_of_le h
  rw [hk, Nat.add_sub_cancel_left, Int.neg_tdiv, pow_add, Int.mul_tdiv_cancel_left _ (by positivity)]

end Sys2Proof.Machine
end

section
namespace Sys2Proof.Proofs

open Sys2Proof.Machine

/-- Settles O29: the two cases of the scaler as numbers; a shift by `W` or more divides a smaller magnitude. -/
theorem scaleIsNegateShiftRenegate : Obligations.ScaleIsNegateShiftRenegate := by
  unfold Obligations.ScaleIsNegateShiftRenegate
  intro w x n h1 hw
  refine ⟨?_, scaleW_eq_zero_of_width_le h1 hw⟩
  rw [← uintW]
  split
  case isTrue h => exact scaleW_toNat_nonneg h1 hw h
  case isFalse h => exact scaleW_toNat_neg h1 hw (Nat.not_lt.1 h)

/-- Settles O30: the scaler's value is the quotient rounded toward zero (`sintW_scaleW`). -/
theorem scaleIsTruncatedDivision : Obligations.ScaleIsTruncatedDivision := by
  unfold Obligations.ScaleIsTruncatedDivision
  intro w x n h1 hw _
  exact ⟨sintW_scaleW h1 hw, scaleW_lt hw⟩

/-- Settles O31: a value other than the most negative one has its negation in range, and division toward zero is odd. -/
theorem scaleIsSignSymmetric : Obligations.ScaleIsSignSymmetric := by
  unfold Obligations.ScaleIsSignSymmetric
  intro w x n h1 hw _ hmin
  obtain ⟨hlo, hhi⟩ := sintW_range h1 x
  have hneg : sintW w (wrapW w (-sintW w x)) = -sintW w x := by
    push_cast at hlo hhi
    exact sintW_wrapW h1 hw (by push_cast; omega) (by push_cast; omega)
  rw [scaleW_eq_wrapW_tdiv h1 hw, hneg, Int.neg_tdiv, sintW_scaleW h1 hw]

/-- Settles O32: each row evaluates the quotient rounded toward zero (`sintW_scaleW`) at its operand. -/
theorem scaleCornerCases : Obligations.ScaleCornerCases := by
  unfold Obligations.ScaleCornerCases
  intro w n x h1 hw _
  have hzero := fun hlo hhi => sintW_scaleW_eq_zero (n := n) (x := x) h1 hw hlo hhi
  have hwide : w ≤ n → sintW w (scaleW w x n) = 0 := fun hwn => by
    obtain ⟨hlo, hhi⟩ := sintW_between_of_width_le h1 hwn x
    exact hzero hlo hhi
  refine ⟨?zero, ?noShift, ?minusOne, ?mostNegative, fun _ => hwide, ?mostPositive, hwide, ?floorPlusOne⟩
  case zero =>
    intro hx
    rw [sintW_scaleW h1 hw, hx, Int.zero_tdiv]
  case noShift =>
    rintro rfl
    rw [sintW_scaleW h1 hw, pow_zero, Int.tdiv_one]
  case minusOne =>
    intro hx hn
    have hpow : (1 : Int) < 2 ^ n := one_lt_pow₀ one_lt_two (by omega)
    exact hzero (by omega) (by omega)
  case mostNegative =>
    intro hx _ hn
    rw [sintW_scaleW h1 hw, hx, neg_half_tdiv_two_pow hn]
  case mostPositive =>
    rintro hx rfl
    have hpow : (0 : Int) < 2 ^ (w - 1) := by positivity
    exact hzero (by omega) (by omega)
  case floorPlusOne =>
    intro hx hd
    rw [sintW_scaleW h1 hw, tdiv_eq_ediv_add_one (by positivity) hx hd]

end Sys2Proof.Proofs
end

section
/-! SUPPORT. The scaled pair and its difference when both published sums are non-negative signed values, as they are under
the invariant and for a constant input (spec/42_scaler.md R89, R90), and how a shift command decodes (R88). -/

namespace Sys2Proof

open Sys2Proof.Machine

/-- `SSHR` passes every check of R58 but the port's: `N` is its operand and every data word is one. -/
theorem decode_sshr (c : Config) (dw : Word) (n : BitVec 6) (port : Port) :
    decode c ⟨port, 0xA000#16 + n.setWidth 16, dw⟩ =
      if port = .consumer then .ok (.sshr (lowBits c.w dw) n) else .error .wrongPort := by
  obtain ⟨hop, hrsv, hn⟩ : commandOf (cmdField (0xA000#16 + n.setWidth 16)) = some .sshr ∧
      rsvField (0xA000#16 + n.setWidth 16) = 0#7 ∧ nField (0xA000#16 + n.setWidth 16) = n := by
    revert n
    decide
  simp only [decode, hop, hrsv, hn]
  cases port <;> simp [Command.noData, Command.consumerOnly, Command.instr, hn]

namespace Config

variable {c : Config}

/-- R34's bound on a published sum is a non-negative signed value. -/
theorem half_window_sum_lt (hc : c.Admitted) : (2 ^ c.sw - 1) * (c.windowLength / 2) < 2 ^ (c.w - 1) :=
  (Nat.mul_le_mul_left _ (Nat.div_le_self _ _)).trans_lt (window_sum_lt hc)

theorem extraBits_pos (hc : c.Admitted) : 1 ≤ c.extraBits := satisfies_c1_iff.mp (satisfies_of_admitted hc .c1)

/-- What a constant input leaves in a bucket, half a window of one value (R74), with the powers of two that R90's shifts
divide by. -/
theorem half_constant_window_eq (hc : c.Admitted) {u v : Nat} (h : 2 * u = v * 4 ^ c.extraBits) :
    u = v * 2 ^ (c.extraBits - 1) * 2 ^ c.extraBits := by
  have hpow : 4 ^ c.extraBits = 2 * 2 ^ (c.extraBits - 1) * 2 ^ c.extraBits := by
    rw [two_mul_half (extraBits_pos hc), ← Nat.mul_pow]
  rw [hpow] at h
  linarith

/-- Half a window of one value in the ADC's range is a non-negative signed value (C4). -/
theorem half_constant_window_lt (hc : c.Admitted) {u v : Nat} (hv : v < 2 ^ c.sw) (h : 2 * u = v * 4 ^ c.extraBits) :
    u < 2 ^ (c.w - 1) :=
  calc u ≤ 2 * u := Nat.le_mul_of_pos_left u two_pos
    _ = v * c.windowLength := h
    _ ≤ (2 ^ c.sw - 1) * c.windowLength := Nat.mul_le_mul_right _ (Nat.le_sub_one_of_lt hv)
    _ < 2 ^ (c.w - 1) := window_sum_lt hc

end Config

namespace Machine

variable {c : Config} {r : Regs} {w n : Nat} {x : Word}

/-- A non-negative signed value is divided as a natural number. -/
theorem sintW_scaleW_of_lt_half (h1 : 1 ≤ w) (hw : w ≤ 64) (hx : x.toNat < 2 ^ (w - 1)) :
    sintW w (scaleW w x n) = (x.toNat / 2 ^ n : Nat) := by
  rw [sintW_scaleW h1 hw, sintW_of_lt_half h1 hx, Int.ofNat_tdiv, Nat.cast_pow, Nat.cast_ofNat]

theorem sintW_scaleW_of_eq_mul {a : Nat} (h1 : 1 ≤ w) (hw : w ≤ 64) (hx : x.toNat < 2 ^ (w - 1))
    (h : x.toNat = a * 2 ^ n) : sintW w (scaleW w x n) = a := by
  rw [sintW_scaleW_of_lt_half h1 hw hx, h, Nat.mul_div_cancel _ (Nat.two_pow_pos n)]

/-- Two non-negative signed values are less than half the range apart. -/
theorem sintW_wrapW_sub {a b : Nat} (h1 : 1 ≤ w) (hw : w ≤ 64) (ha : a < 2 ^ (w - 1)) (hb : b < 2 ^ (w - 1)) :
    sintW w (wrapW w ((a : Int) - b)) = (a : Int) - b :=
  sintW_wrapW h1 hw (by omega) (by omega)

/-- The difference of two non-negative levels does not wrap (R89). -/
theorem sintW_scaledDiff (hc : c.Admitted) (hexc : r.pubExc.toNat < 2 ^ (c.w - 1)) (hbg : r.pubBg.toNat < 2 ^ (c.w - 1)) :
    sintW c.w (scaledDiff c r) = sintW c.w (excScaled c r) - sintW c.w (bgScaled c r) := by
  have h1 := Config.w_pos hc
  have hw := Config.w_le hc
  rw [scaledDiff, excScaled, bgScaled, sintW_scaleW_of_lt_half h1 hw hexc, sintW_scaleW_of_lt_half h1 hw hbg]
  exact sintW_wrapW_sub h1 hw ((Nat.div_le_self _ _).trans_lt hexc) ((Nat.div_le_self _ _).trans_lt hbg)

/-- R89 of one published register: the quotient by the power of two, no larger than the sum itself. -/
theorem sintW_scaleW_published {B : Nat} (hc : c.Admitted) (hB : B < 2 ^ (c.w - 1)) (hx : x.toNat ≤ B) :
    (0 ≤ sintW c.w (scaleW c.w x n) ∧ sintW c.w (scaleW c.w x n) ≤ B) ∧
    sintW c.w (scaleW c.w x n) = sintW c.w x / 2 ^ n := by
  have hx' := hx.trans_lt hB
  rw [sintW_scaleW_of_lt_half (Config.w_pos hc) (Config.w_le hc) hx', sintW_of_lt_half (Config.w_pos hc) hx']
  exact ⟨⟨Int.natCast_nonneg _, mod_cast (Nat.div_le_self _ _).trans hx⟩, by push_cast; rfl⟩

end Machine
end Sys2Proof
end

section
namespace Sys2Proof.Proofs

open Sys2Proof.Machine Sys2Proof.Safety

/-- Settles O33: the invariant's bound on the published pair is a non-negative signed value, so each level is a quotient
below it and the difference of two such does not wrap (`sintW_scaledDiff`). -/
theorem scaledPairAndDifferenceAreExact : Obligations.ScaledPairAndDifferenceAreExact := by
  unfold Obligations.ScaledPairAndDifferenceAreExact
  intro s hi
  have hB := Config.half_window_sum_lt hi.admitted
  obtain ⟨hexc, hexcDiv⟩ := sintW_scaleW_published (n := configShift s.cfg.excShift) hi.admitted hB hi.pubExc_le
  obtain ⟨hbg, hbgDiv⟩ := sintW_scaleW_published (n := configShift s.cfg.bgShift) hi.admitted hB hi.pubBg_le
  dsimp only
  rw [← half_window_bound_cast hi.admitted]
  exact ⟨_, mailboxReport s.cfg s.regs, rfl, rfl, rfl, rfl, hexc, hbg, hexcDiv, hbgDiv,
    sintW_scaledDiff hi.admitted (hi.pubExc_le.trans_lt hB) (hi.pubBg_le.trans_lt hB)⟩

/-- Settles O56: both registers hold `v * 2^(k-1) * 2^k` (`half_constant_window_eq`), which the default shifts divide by
`2^k` and by `2^(k-1)`, and equal shifts divide alike. -/
theorem constantInputGains : Obligations.ConstantInputGains := by
  unfold Obligations.ConstantInputGains
  intro s v hc hv hpub hpair
  have h1 := Config.w_pos hc
  have hw := Config.w_le hc
  have hsum := Config.half_constant_window_eq hc hpub
  have hlt := Config.half_constant_window_lt hc hv hpub
  have hdiff := sintW_scaledDiff hc hlt (hpair ▸ hlt)
  refine ⟨_, mailboxReport s.cfg s.regs, rfl, rfl, fun hes hbs => ?defaultShifts, fun hsh => ?equalShifts⟩
  case defaultShifts =>
    have hn : configShift s.cfg.excShift = s.cfg.extraBits := by rw [hes, configShift, Int.toNat_natCast]
    have hm : configShift s.cfg.bgShift = s.cfg.extraBits - 1 := by
      rw [hbs, configShift]
      omega
    have hexc : sintW s.cfg.w (excScaled s.cfg s.regs) = (v * 2 ^ (s.cfg.extraBits - 1) : Nat) := by
      rw [excScaled, hn, sintW_scaleW_of_eq_mul h1 hw hlt hsum]
    have hbg : sintW s.cfg.w (bgScaled s.cfg s.regs) = (v * 2 ^ s.cfg.extraBits : Nat) := by
      rw [bgScaled, hm, hpair, sintW_scaleW_of_eq_mul h1 hw hlt (hsum.trans (Nat.mul_right_comm _ _ _))]
    have hdouble : v * 2 ^ s.cfg.extraBits = 2 * (v * 2 ^ (s.cfg.extraBits - 1)) := by
      rw [← two_mul_half (Config.extraBits_pos hc), Nat.mul_left_comm]
    refine ⟨mod_cast hexc, mod_cast hbg, hdiff.trans ?_⟩
    rw [hexc, hbg, hdouble]
    push_cast
    ring
  case equalShifts => exact hdiff.trans (by rw [excScaled, bgScaled, hpair, hsh, Int.sub_self])

/-- Settles O22: R58's checks leave the port's alone (`decode_sshr`), and the command answers the state as it stands. -/
theorem sshrScalesAnyOperand : Obligations.SshrScalesAnyOperand := by
  unfold Obligations.SshrScalesAnyOperand
  exact ⟨fun c dw n => ⟨decode_sshr c dw n .consumer, decode_sshr c dw n .producer⟩, fun s x n => rfl, by decide⟩

end Sys2Proof.Proofs
end

section
/-! SUPPORT. How the consumer port's mailbox commands decode (spec/30_encoding.md R53, R58; spec/43_consumer.md R91 to R93). -/

namespace Sys2Proof

/-- A command that has no operand and that only the consumer port carries passes every check of R58 but the port's, when
`RSV`, `N` and `DW` are 0. -/
theorem decode_noData_consumerOnly {cw : CmdWord} {op : Command}
    (hcw : commandOf (cmdField cw) = some op ∧ rsvField cw = 0#7 ∧ nField cw = 0#6)
    (hop : op.noData = true ∧ op.consumerOnly = true) (c : Config) (port : Port) :
    decode c ⟨port, cw, 0#64⟩ = if port = .consumer then .ok (op.instr cw 0#64) else .error .wrongPort := by
  obtain ⟨hcmd, hrsv, hn⟩ := hcw
  obtain ⟨hdata, hport⟩ := hop
  have hdw : Machine.lowBits c.w 0#64 = 0#64 := Machine.lowBits_of_lt (Nat.two_pow_pos c.w)
  have hsample : op ≠ .sample := by
    rintro rfl
    cases hdata
  simp only [decode, hcmd, hrsv, hn, hdw]
  cases port <;> simp [hport, hsample]

end Sys2Proof
end

section
namespace Sys2Proof.Proofs

open Sys2Proof.Machine

/-- Settles O19: the port is the only check of R58 that can fail (`decode_noData_consumerOnly`), and the command answers the
state as it stands. -/
theorem pollReportsReady : Obligations.PollReportsReady := by
  unfold Obligations.PollReportsReady
  have hdec := decode_noData_consumerOnly (cw := 0x4000#16) (op := .poll) (by decide) (by decide)
  exact ⟨fun c => ⟨hdec c .consumer, hdec c .producer⟩, fun s => rfl⟩

/-- Settles O20: the decoding is as for `POLL`; the report is `SCALEPUB` written out (R89) on the registers before the step,
and the clear writes `READY` alone. -/
theorem consumeReadsScalesAndClears : Obligations.ConsumeReadsScalesAndClears := by
  unfold Obligations.ConsumeReadsScalesAndClears
  have hdec := decode_noData_consumerOnly (cw := 0x6000#16) (op := .consume) (by decide) (by decide)
  exact ⟨fun c => ⟨hdec c .consumer, hdec c .producer⟩, fun s => rfl⟩

/-- Settles O21: the decoding is as for `POLL`; the report is that of `CONSUME` on a state answered as it stands. -/
theorem peekReportsWithoutClearing : Obligations.PeekReportsWithoutClearing := by
  unfold Obligations.PeekReportsWithoutClearing
  have hdec := decode_noData_consumerOnly (cw := 0x8000#16) (op := .peek) (by decide) (by decide)
  exact ⟨fun c => ⟨hdec c .consumer, hdec c .producer⟩, fun s => rfl⟩

end Sys2Proof.Proofs
end

section
/-! SUPPORT. Every command completes, and what each one does to `READY` (spec/60_exceptions.md R97, R102). -/

namespace Sys2Proof.Machine

variable {s t : State} {i : Instr}

theorem exec_completes (i : Instr) (s : State) : ∃ t, exec i s = .next t := by
  cases i with
  | nop | sample | poll | consume | peek | sshr => exact ⟨_, rfl⟩

/-- A command is a publishing `SAMPLE` and sets `READY`, or a `CONSUME` and clears it, or neither and keeps it; its response
says which. -/
theorem exec_ready_cases (h : exec i s = .next t) :
    ((∃ ms ml, t.rsp = some (.sample true ms ml)) ∧ t.regs.ready = true) ∨
    ((∃ m, t.rsp = some (.consume m)) ∧ t.regs.ready = false) ∨
    ((∀ ms ml, t.rsp ≠ some (.sample true ms ml)) ∧ (∀ m, t.rsp ≠ some (.consume m)) ∧ t.regs.ready = s.regs.ready) := by
  cases i with
  | sample raw =>
    by_cases hfull : s.regs.scnt + 1 = s.cfg.windowLength
    · cases (exec_sample_boundary hfull).symm.trans h
      exact .inl ⟨⟨_, _, rfl⟩, by simp [loResync_keeps, loAdvance_keeps]⟩
    · cases (exec_sample_inside hfull).symm.trans h
      exact .inr (.inr ⟨nofun, nofun, by simp [loAdvance_keeps]⟩)
  | consume =>
    cases h
    exact .inr (.inl ⟨⟨_, rfl⟩, rfl⟩)
  | nop | poll | peek | sshr =>
    cases h
    exact .inr (.inr ⟨nofun, nofun, rfl⟩)

end Sys2Proof.Machine
end

section
namespace Sys2Proof.Proofs

open Sys2Proof.Machine

/-- Settles O37: a reset clears `READY`, a refusal keeps it, and a command does what its response says
(`exec_ready_cases`). -/
theorem readyRisesAndFallsOnlyAsListed : Obligations.ReadyRisesAndFallsOnlyAsListed := by
  unfold Obligations.ReadyRisesAndFallsOnlyAsListed
  intro s t hstep
  obtain ⟨-, ⟨rest, hi, rfl⟩ | ⟨tx, rest, why, hi, -, rfl⟩ | ⟨tx, rest, i, hi, -, hexec⟩⟩ := step_cases hstep
  · simp [hi]
  · simp [hi]
  · rcases exec_ready_cases hexec with ⟨⟨ms, ml, hrsp⟩, hready⟩ | ⟨⟨m, hrsp⟩, hready⟩ | ⟨hsample, hconsume, hready⟩
    · simp [hi, hrsp, hready]
    · simp [hi, hrsp, hready]
    · simp [hi, hsample, hconsume, hready]

/-- Settles O17: there is no fault to answer, and every command completes (`exec_completes`), accepted or not. -/
theorem acceptedCommandNeverFails : Obligations.AcceptedCommandNeverFails := by
  unfold Obligations.AcceptedCommandNeverFails
  exact ⟨fun _ f => (nomatch f), fun _ _ i s _ => exec_completes i s⟩

end Sys2Proof.Proofs
end

section
/-! SUPPORT. A step exists on every event (spec/60_exceptions.md R97, R99; spec/70_reset_and_hazards.md R111). -/

namespace Sys2Proof.Machine

variable {s : State} {e : Event} {rest : List Event}

/-- An admitted block with an event to take answers a next state: a reset and a refusal always do, and an accepted command
completes. -/
theorem step_completes (hc : s.cfg.Admitted) (hi : s.inputs = e :: rest) : ∃ t, step s = .next t := by
  cases e with
  | reset => exact ⟨_, step_reset hc hi⟩
  | transaction tx =>
    cases hd : decode s.cfg tx with
    | error why => exact ⟨_, step_refused hc hi hd⟩
    | ok i =>
      rw [step_accepted hc hi hd]
      exact exec_completes i _

end Sys2Proof.Machine
end

section
namespace Sys2Proof.Proofs

open Sys2Proof.Machine

/-- Settles O3: the reset state's registers do not depend on the configuration, and R112's table gives each. -/
theorem resetWritesTheListedValues : Obligations.ResetWritesTheListedValues := by
  unfold Obligations.ResetWritesTheListedValues
  intro c
  rfl

/-- Settles O4: the next state is the reset of the state with its event taken (`step_reset`); the configuration is kept, so
it is still admitted and a later event has a step (`step_completes`). -/
theorem resetStepRestoresEveryRegister : Obligations.ResetStepRestoresEveryRegister := by
  unfold Obligations.ResetStepRestoresEveryRegister
  intro s rest hc hi
  have hstep := step_reset hc hi
  have hlater : ∀ e more, rest = e :: more → ∃ u, step (State.takeReset { s with inputs := rest }) = .next u :=
    fun _ _ hrest => step_completes hc hrest
  exact ⟨_, hstep, by simpa using hlater⟩

end Sys2Proof.Proofs
end

section
/-! SUPPORT. The invariant of R34 at reset and across a sample, a command and a step (spec/10_state.md R34;
spec/40_engine.md R66 to R69, R73). -/

namespace Sys2Proof.Machine

variable {s t : State} {i : Instr}

/-- A command writes neither the configuration nor the events to come, and records no refusal. -/
theorem exec_keeps_surroundings (h : exec i s = .next t) :
    t.cfg = s.cfg ∧ t.inputs = s.inputs ∧ t.refused = s.refused := by
  cases i with
  | nop | sample | poll | consume | peek | sshr =>
    cases h
    exact ⟨rfl, rfl, rfl⟩

end Sys2Proof.Machine

namespace Sys2Proof.Safety

open Sys2Proof.Machine

variable {c : Config} {s t : State} {r : Regs} {n : Nat}

/-- The invariant looks at the configuration and the registers only. -/
theorem Inv.congr (hi : Inv s) (hcfg : t.cfg = s.cfg) (hregs : t.regs = s.regs) : Inv t := by
  cases s
  cases t
  subst hcfg hregs
  exact { hi with }

theorem inv_reset (hc : s.cfg.Admitted) (hr : s.regs = Regs.reset) : Inv s where
  admitted := hc
  scnt_lt := by simp [hr, Config.windowLength_pos]
  pcnt_eq := by simp [hr]
  exciting_eq := by simp [hr]
  modOut_eq := .inr (by simp [hr, Config.p_pos hc])
  accExc_le := by simp [hr]
  accBg_le := by simp [hr]
  pubExc_le := by simp [hr]
  pubBg_le := by simp [hr]

/-! ## One sample -/

/-- R34 items 2 and 3 of an LO that stands as after `n` samples: the place in the window decides both. -/
theorem LoAt.items_of_place (hc : c.Admitted) (h : LoAt c.p n r) :
    r.pcnt = n % c.windowLength % c.p ∧ r.exciting = (n % c.windowLength / c.p % 2 == 1) := by
  rw [mod_window_mod_p hc, mod_window_div_p_parity hc]
  exact ⟨h.pcnt_eq, h.exciting_eq⟩

/-- R34 item 6 with one more sample: it is in the bucket that its place counts for. -/
theorem Inv.classify_le (hi : Inv s) (raw : Word) :
    (classify s.cfg raw s.regs).accExc.toNat ≤ (2 ^ s.cfg.sw - 1) * excCount s.cfg.p (s.regs.scnt + 1) ∧
    (classify s.cfg raw s.regs).accBg.toNat ≤ (2 ^ s.cfg.sw - 1) * bgCount s.cfg.p (s.regs.scnt + 1) := by
  have hv := sampleValue_lt s.cfg raw
  have hexc := accumulate_toNat (Config.w_pos hi.admitted) (Config.w_le hi.admitted) (hi.accExc_add_lt hv)
  have hbg := accumulate_toNat (Config.w_pos hi.admitted) (Config.w_le hi.admitted) (hi.accBg_add_lt hv)
  have hexc_le := hi.accExc_le
  have hbg_le := hi.accBg_le
  rw [classify_accExc, classify_accBg, hi.exciting_eq, excCount, bgCount, Nat.mul_add, Nat.mul_add]
  rcases Nat.mod_two_eq_zero_or_one (s.regs.scnt / s.cfg.p) with hpar | hpar
  · simp [hpar, hbg]
    omega
  · simp [hpar, hexc]
    omega

/-- Inside a window a flip commands the output to the phase, and without a flip the first one is still to come if it was. -/
theorem Inv.modOut_advance (hi : Inv s) :
    let a := loAdvance s.cfg.p s.regs
    a.regs.modOut = a.regs.exciting ∨
    (a.regs.modOut = true ∧ s.regs.scnt + 1 < s.cfg.p ∧ s.regs.ready = false ∧ s.regs.pubExc = 0#64 ∧
      s.regs.pubBg = 0#64) := by
  by_cases hflip : s.regs.pcnt + 1 = s.cfg.p
  · rw [loAdvance_flip hflip]
    exact .inl rfl
  · rw [loAdvance_count hflip]
    rcases hi.modOut_eq with hfollows | ⟨hout, hlt, hempty⟩
    · exact .inl hfollows
    · rw [hi.pcnt_eq, Nat.mod_eq_of_lt hlt] at hflip
      exact .inr ⟨hout, by omega, hempty⟩

/-- What `exec_sample_lo` says of the one next state. -/
theorem Inv.sample_lo (hi : Inv s) {raw : Word} (hexec : exec (.sample raw) s = .next t) :
    let a := loAdvance s.cfg.p s.regs
    t.regs.exciting = a.regs.exciting ∧ t.regs.modOut = a.regs.modOut ∧ t.regs.pcnt = a.regs.pcnt := by
  obtain ⟨u, pub, hexec', hx, hout, hcount, -⟩ := exec_sample_lo raw hi.last_sample
  obtain rfl : t = u := Host.Outcome.next.inj (hexec.symm.trans hexec')
  exact ⟨hx, hout, hcount⟩

/-- A sample inside a window counts and is summed. -/
theorem Inv.sample_inside (hi : Inv s) {raw : Word} (hexec : exec (.sample raw) s = .next t)
    (hin : s.regs.scnt + 1 ≠ s.cfg.windowLength) : Inv t := by
  have hL := Config.windowLength_pos s.cfg
  have hlt := hi.scnt_lt
  obtain ⟨hx, hout, hcount⟩ := hi.sample_lo hexec
  obtain ⟨n, hn, hlo⟩ := hi.exists_loAt
  have hn' : (n + 1) % s.cfg.windowLength = s.regs.scnt + 1 := by
    rw [mod_add_one_of_ne_zero hL (by rwa [ne_eq, ← mod_add_one_eq_iff hL, hn]), hn]
  obtain ⟨hitem2, hitem3⟩ := (hlo.advance (Config.p_pos hi.admitted)).items_of_place hi.admitted
  rw [hn'] at hitem2 hitem3
  have hitem4 := hi.modOut_advance
  dsimp only at hitem4
  rw [← hx, ← hout] at hitem4
  obtain ⟨hexc, hbg⟩ := hi.classify_le raw
  cases (exec_sample_inside hin).symm.trans hexec
  exact {
    admitted := hi.admitted
    scnt_lt := by simp [loAdvance_keeps]; omega
    pcnt_eq := by simpa [loAdvance_keeps] using hcount.trans hitem2
    exciting_eq := by simpa [loAdvance_keeps] using hx.trans hitem3
    modOut_eq := by simpa [loAdvance_keeps] using hitem4
    accExc_le := by simpa [loAdvance_keeps] using hexc
    accBg_le := by simpa [loAdvance_keeps] using hbg
    pubExc_le := by simpa [loAdvance_keeps] using hi.pubExc_le
    pubBg_le := by simpa [loAdvance_keeps] using hi.pubBg_le }

/-- The last sample of a window publishes two sums of a whole window and flips to Background. -/
theorem Inv.sample_boundary (hi : Inv s) {raw : Word} (hexec : exec (.sample raw) s = .next t)
    (hend : s.regs.scnt + 1 = s.cfg.windowLength) : Inv t := by
  obtain ⟨hflip, hphase⟩ := hi.last_sample hend
  obtain ⟨hx, hout, hcount⟩ := hi.sample_lo hexec
  rw [loAdvance_flip hflip] at hx hout hcount
  obtain ⟨hexc, hbg⟩ := hi.classify_le raw
  rw [hend, excCount_windowLength hi.admitted] at hexc
  rw [hend, bgCount_windowLength hi.admitted] at hbg
  cases (exec_sample_boundary hend).symm.trans hexec
  exact {
    admitted := hi.admitted
    scnt_lt := by simp [loResync_keeps, loAdvance_keeps, Config.windowLength_pos]
    pcnt_eq := by simpa [loResync_keeps, loAdvance_keeps] using hcount
    exciting_eq := by simpa [loResync_keeps, loAdvance_keeps, hphase] using hx
    modOut_eq := .inl (hout.trans hx.symm)
    accExc_le := by simp [loResync_keeps, loAdvance_keeps]
    accBg_le := by simp [loResync_keeps, loAdvance_keeps]
    pubExc_le := by simpa [loResync_keeps, loAdvance_keeps] using hexc
    pubBg_le := by simpa [loResync_keeps, loAdvance_keeps] using hbg }

/-! ## Commands and steps -/

/-- A clear of `READY` keeps the invariant: item 4 asks for it at 0, if anything. -/
theorem Inv.consume (hi : Inv s) (evs : List Bool) (rsp : Response) : Inv (s.answer s.regs.clearReady evs rsp) where
  __ := hi
  modOut_eq := hi.modOut_eq.imp_right fun ⟨hout, hlt, _, hpub⟩ => ⟨hout, hlt, rfl, hpub⟩

theorem Inv.of_exec (hi : Inv s) {i : Instr} (hexec : exec i s = .next t) : Inv t := by
  by_cases hs : ∃ raw, i = .sample raw
  · obtain ⟨raw, rfl⟩ := hs
    by_cases hend : s.regs.scnt + 1 = s.cfg.windowLength
    · exact hi.sample_boundary hexec hend
    · exact hi.sample_inside hexec hend
  by_cases hc : i = .consume
  · subst hc
    cases hexec
    exact hi.consume _ _
  obtain ⟨rsp, hexec'⟩ := exec_readOnly s (fun raw h => hs ⟨raw, h⟩) hc
  cases hexec'.symm.trans hexec
  exact hi.congr rfl rfl

theorem Inv.of_step (hi : Inv s) (hstep : step s = .next t) : Inv t := by
  obtain ⟨hc, ⟨rest, -, rfl⟩ | ⟨tx, rest, why, -, -, rfl⟩ | ⟨tx, rest, i, -, -, hexec⟩⟩ := step_cases hstep
  · exact inv_reset hc rfl
  · exact hi.congr rfl rfl
  · have hi' : Inv { s with inputs := rest } := hi.congr rfl rfl
    exact hi'.of_exec hexec

/-! ## The sums -/

/-- R34 items 6 and 7 of a pattern no larger than half a window's largest sum, read as signed. -/
theorem sintW_between_of_le (hc : c.Admitted) {x : Word} (hx : x.toNat ≤ (2 ^ c.sw - 1) * (c.windowLength / 2)) :
    0 ≤ sintW c.w x ∧ sintW c.w x ≤ (2 ^ c.sw - 1) * 4 ^ c.extraBits / 2 := by
  rw [sintW_of_lt_half (Config.w_pos hc) (hx.trans_lt (Config.half_window_sum_lt hc)), ← half_window_bound_cast hc]
  exact ⟨Int.natCast_nonneg _, mod_cast hx⟩

/-- The buckets of a window in progress hold no more than those of a whole window. -/
theorem Inv.acc_le (hi : Inv s) :
    s.regs.accExc.toNat ≤ (2 ^ s.cfg.sw - 1) * (s.cfg.windowLength / 2) ∧
    s.regs.accBg.toNat ≤ (2 ^ s.cfg.sw - 1) * (s.cfg.windowLength / 2) := by
  have hexc := excCount_le_of_le s.cfg.p hi.scnt_lt.le
  have hbg := bgCount_le_of_le s.cfg.p hi.scnt_lt.le
  rw [excCount_windowLength hi.admitted] at hexc
  rw [bgCount_windowLength hi.admitted] at hbg
  exact ⟨hi.accExc_le.trans (Nat.mul_le_mul_left _ hexc), hi.accBg_le.trans (Nat.mul_le_mul_left _ hbg)⟩

/-! ## The places of a window -/

/-- The counts of R73, as the places that a filter keeps. -/
theorem length_filter_places (p k : Nat) :
    ((List.range k).filter fun j => j / p % 2 == 1).length = excCount p k ∧
    ((List.range k).filter fun j => j / p % 2 == 0).length = bgCount p k := by
  induction k with
  | zero => exact ⟨rfl, rfl⟩
  | succ k ih =>
    obtain ⟨hexc, hbg⟩ := ih
    rw [List.range_succ, List.filter_append, List.filter_append, List.length_append, List.length_append, hexc, hbg,
      excCount, bgCount]
    rcases Nat.mod_two_eq_zero_or_one (k / p) with hpar | hpar <;> simp [hpar]

end Sys2Proof.Safety
end

section
namespace Sys2Proof.Proofs

open Sys2Proof.Machine Sys2Proof.Safety

/-- Settles O44: a reset brings the invariant about (`inv_reset`), a refusal touches nothing it looks at, and every command
keeps it (`Inv.of_exec`). -/
theorem stepKeepsInvariant : Obligations.StepKeepsInvariant := by
  unfold Obligations.StepKeepsInvariant
  exact fun _ _ hi hstep => hi.of_step hstep

/-- Settles O43: the reset registers satisfy every item in an admitted configuration (`inv_reset`), such as that of
`State.reset`. -/
theorem invariantHoldsAtReset : Obligations.InvariantHoldsAtReset := by
  unfold Obligations.InvariantHoldsAtReset
  exact ⟨inv_reset (by decide) rfl, fun c hc => inv_reset hc rfl⟩

/-- Settles O45: the invariant bounds each of the four sums by half a window's largest one, a non-negative signed value. -/
theorem invariantBoundsEverySum : Obligations.InvariantBoundsEverySum := by
  unfold Obligations.InvariantBoundsEverySum
  intro s hi
  have hle := fun {x : Word} => sintW_between_of_le (x := x) hi.admitted
  obtain ⟨hexc, hbg⟩ := hi.acc_le
  exact ⟨hle hexc, hle hbg, hle hi.pubExc_le, hle hi.pubBg_le⟩

/-- Settles O46: the places kept are those that the invariant counts (`length_filter_places`), half of a window's in each
phase. -/
theorem windowSplitsEvenly : Obligations.WindowSplitsEvenly := by
  unfold Obligations.WindowSplitsEvenly
  intro c hc
  obtain ⟨hexc, hbg⟩ := length_filter_places c.p c.windowLength
  exact ⟨hexc.trans (excCount_windowLength hc), hbg.trans (bgCount_windowLength hc)⟩

/-- Settles O58: one step keeps the tie, on any event (`Follows.step_next`). -/
theorem stepFollowsItsHistory : Obligations.StepFollowsItsHistory := by
  unfold Obligations.StepFollowsItsHistory
  exact fun _ _ _ _ hf hi => hf.step_next hi

/-- Settles O57: the reset registers are those of no sample and no unread window (`follows_start`). -/
theorem resetFollowsTheEmptyHistory : Obligations.ResetFollowsTheEmptyHistory := by
  unfold Obligations.ResetFollowsTheEmptyHistory
  exact fun _ _ hc => follows_start hc rfl

end Sys2Proof.Proofs
end

section
/-! SUPPORT. The encoder and the assembler's words against the decoder (spec/30_encoding.md R52 to R61). -/

namespace Sys2Proof

open Sys2Proof.Machine

variable {c : Config}

/-! ## From a command to its words and back -/

/-- The number of an accepted command word (R52, R57): `CMD`, and `N` where the command has it. -/
theorem cw_toNat_of_command {cw : CmdWord} {op : Command} (hop : commandOf (cmdField cw) = some op)
    (hrsv : rsvField cw = 0#7) : cw.toNat = op.number * 8192 + (nField cw).toNat := by
  rw [cw_eq_of_fields, commandOf_eq_some_iff.mp hop, hrsv, BitVec.toNat_zero, Nat.zero_mul,
    Nat.add_zero]

/-- The encoder gives back the command word that the decoder read (R52, R56, R57). -/
theorem encodeCw_instr {cw : CmdWord} {op : Command} (dw : Word) (hop : commandOf (cmdField cw) = some op)
    (hrsv : rsvField cw = 0#7) (hn : op ≠ .sshr → nField cw = 0#6) : encodeCw (op.instr cw dw) = cw := by
  apply BitVec.eq_of_toNat_eq
  rw [cw_toNat_of_command hop hrsv]
  cases op with
  | nop | sample | poll | consume | peek =>
    rw [hn (by decide)]
    rfl
  | sshr =>
    have hlt := (nField cw).isLt
    simp only [Command.instr, encodeCw, Command.number, BitVec.toNat_add, BitVec.toNat_setWidth, BitVec.toNat_ofNat]
    omega

/-! ## Assembler lines -/

theorem decode_sampleLine {v : Nat} (hc : c.Admitted) (hv : v < 2 ^ c.sw) :
    decode c (sampleLine v) = .ok (.sample (BitVec.ofNat 64 v)) :=
  decode_sample hc ((toNat_ofNat_of_inRange hc hv).trans_lt hv) .producer

/-- The amount of `sshr x, n` in the six bits of `N`. -/
theorem setWidth_ofNat_of_le {n : Nat} (hn : n ≤ 63) : (BitVec.ofNat 6 n).setWidth 16 = BitVec.ofNat 16 n := by
  apply BitVec.eq_of_toNat_eq
  simp only [BitVec.toNat_setWidth, BitVec.toNat_ofNat]
  omega

theorem decode_sshrLine {n : Nat} (hc : c.Admitted) (x : Int) (hn : n ≤ 63) :
    decode c ⟨.consumer, 0xA000#16 + BitVec.ofNat 16 n, wrapW c.w x⟩ =
      .ok (.sshr (wrapW c.w x) (BitVec.ofNat 6 n)) := by
  rw [← setWidth_ofNat_of_le hn, decode_sshr, if_pos rfl, lowBits_of_lt (wrapW_lt (Config.w_le hc) x)]

end Sys2Proof
end

section
namespace Sys2Proof.Proofs

open Sys2Proof.Machine

/-- Settles O7: each command's words pass every check of R58 on a port that carries it, and a well-formed operand is read back
whole. -/
theorem decodeInvertsEncode : Obligations.DecodeInvertsEncode := by
  unfold Obligations.DecodeInvertsEncode
  intro c port i hc hwf hport
  cases i with
  | nop => exact nopChangesNothing.1 c port
  | sample raw =>
    obtain rfl : port = .producer := eq_of_beq hport
    exact decode_sample hc (of_decide_eq_true hwf) .producer
  | poll =>
    obtain rfl : port = .consumer := eq_of_beq hport
    exact (pollReportsReady.1 c).1
  | consume =>
    obtain rfl : port = .consumer := eq_of_beq hport
    exact (consumeReadsScalesAndClears.1 c).1
  | peek =>
    obtain rfl : port = .consumer := eq_of_beq hport
    exact (peekReportsWithoutClearing.1 c).1
  | sshr x n =>
    obtain rfl : port = .consumer := eq_of_beq hport
    exact (decode_sshr c x n .consumer).trans (by rw [if_pos rfl, lowBits_of_lt (of_decide_eq_true hwf)])

/-- Settles O8: the checks that the transaction passed (`decode_ok`) are the ranges of its command's operands and its ports,
and leave no bit of the word unread (`encodeCw_instr`). -/
theorem acceptedTransactionIsAnEncoding : Obligations.AcceptedTransactionIsAnEncoding := by
  unfold Obligations.AcceptedTransactionIsAnEncoding
  intro c tx i hc hdw hd
  obtain ⟨op, hop, hrsv, hn, hdata, hrange, hproducer, hconsumer, rfl⟩ := decode_ok hd
  rw [lowBits_of_lt hdw] at hdata hrange ⊢
  rw [encode, encodeCw_instr tx.dw hop hrsv hn]
  cases op with
  | nop => exact ⟨rfl, rfl, by rw [hdata rfl]; rfl⟩
  | sample =>
    have hraw : tx.dw.toNat < 2 ^ c.sw := (Nat.div_eq_zero_iff_lt (Nat.two_pow_pos _)).mp (hrange rfl)
    exact ⟨decide_eq_true hraw, by rw [hproducer rfl]; rfl, rfl⟩
  | poll | consume | peek => exact ⟨rfl, by rw [hconsumer rfl]; rfl, by rw [hdata rfl]; rfl⟩
  | sshr => exact ⟨decide_eq_true hdw, by rw [hconsumer rfl]; rfl, rfl⟩

/-- Settles O10: a line's transaction is that of its command (`decode_sampleLine`, `decode_sshrLine`), and the operands of
`sshr` in range survive the wrap and the six bits. -/
theorem assemblerLinesDecodeToTheirCommands : Obligations.AssemblerLinesDecodeToTheirCommands := by
  unfold Obligations.AssemblerLinesDecodeToTheirCommands
  intro c line hc hline
  cases line with
  | nop => exact ⟨congrArg ([·]) (nopChangesNothing.1 c .consumer), nofun⟩
  | nopP => exact ⟨congrArg ([·]) (nopChangesNothing.1 c .producer), nofun⟩
  | sample v => exact ⟨congrArg ([·]) (decode_sampleLine hc (of_decide_eq_true hline)), nofun⟩
  | poll => exact ⟨congrArg ([·]) (pollReportsReady.1 c).1, nofun⟩
  | consume => exact ⟨congrArg ([·]) (consumeReadsScalesAndClears.1 c).1, nofun⟩
  | peek => exact ⟨congrArg ([·]) (peekReportsWithoutClearing.1 c).1, nofun⟩
  | sshr x n =>
    simp only [AsmLine.inRange, Bool.and_eq_true, decide_eq_true_eq] at hline
    obtain ⟨⟨hlo, hhi⟩, hn⟩ := hline
    refine ⟨congrArg ([·]) (decode_sshrLine hc x hn), ?_⟩
    rintro _ _ ⟨⟩
    exact ⟨sintW_wrapW (Config.w_pos hc) (Config.w_le hc) hlo (by omega), Nat.mod_eq_of_lt (by omega)⟩
  | sampleTimes k v =>
    refine ⟨?_, nofun⟩
    simp only [AsmLine.assemble, List.map_replicate, decode_sampleLine hc (of_decide_eq_true hline)]
  | samples vs =>
    simp only [AsmLine.inRange, List.all_eq_true, decide_eq_true_eq] at hline
    refine ⟨?_, nofun⟩
    simp only [AsmLine.assemble, List.map_map]
    exact List.map_congr_left fun v hv => decode_sampleLine hc (hline v hv)

/-- Settles O6: the decoder run on the six words. -/
theorem tableWordsDecode : Obligations.TableWordsDecode := by
  unfold Obligations.TableWordsDecode
  decide

end Sys2Proof.Proofs
end

section
/-! SUPPORT. When a step is refused, what it does to the configuration, the events and the mark, and what a command does to
the published pair (spec/00_scope.md R19; spec/10_state.md R27, R28, R35, R36; spec/60_exceptions.md R98). -/

namespace Sys2Proof.Machine

variable {s t : State} {i : Instr}

theorem nextAction_noEvent (hc : s.cfg.Admitted) (hi : s.inputs = []) : nextAction s = .stop .noEvent := by
  unfold Config.Admitted at hc
  simp [nextAction, hc, hi]

theorem step_noEvent (hc : s.cfg.Admitted) (hi : s.inputs = []) : step s = .refused .noEvent := by
  simp only [step, nextAction_noEvent hc hi]

/-- The converse of `step_of_firstFailure`: a step names no other constraint. -/
theorem firstFailure_of_step {k : Constraint} (h : step s = .refused (.config k)) : s.cfg.firstFailure = some k := by
  cases hc : s.cfg.firstFailure with
  | some j =>
    cases (step_of_firstFailure hc).symm.trans h
    rfl
  | none =>
    cases hi : s.inputs with
    | nil => cases (step_noEvent hc hi).symm.trans h
    | cons e rest =>
      obtain ⟨t, hstep⟩ := step_completes hc hi
      cases hstep.symm.trans h

/-- A step writes no configuration (R36) and takes the first event off (R43). -/
theorem step_takes_event (h : step s = .next t) : t.cfg = s.cfg ∧ ∃ e, s.inputs = e :: t.inputs := by
  obtain ⟨-, ⟨rest, hi, rfl⟩ | ⟨tx, rest, why, hi, -, rfl⟩ | ⟨tx, rest, i, hi, -, hexec⟩⟩ := step_cases h
  · exact ⟨rfl, _, hi⟩
  · exact ⟨rfl, _, hi⟩
  · obtain ⟨hcfg, hin, -⟩ := exec_keeps_surroundings hexec
    exact ⟨hcfg, _, hi.trans (congrArg _ hin.symm)⟩

/-- No command looks at the mark (R35). -/
theorem exec_mark_inert (mark : List RefusalRecord) (h : exec i s = .next t) :
    exec i { s with refused := mark } = .next { t with refused := mark } := by
  cases i with
  | nop | sample | poll | consume | peek | sshr =>
    cases h
    rfl

/-- A command is a publishing `SAMPLE`, by its response, or it leaves the published pair alone. -/
theorem exec_published_cases (h : exec i s = .next t) :
    (∃ ms ml, t.rsp = some (.sample true ms ml)) ∨
    (t.regs.pubExc = s.regs.pubExc ∧ t.regs.pubBg = s.regs.pubBg) := by
  cases i with
  | sample raw =>
    by_cases hfull : s.regs.scnt + 1 = s.cfg.windowLength
    · cases (exec_sample_boundary hfull).symm.trans h
      exact .inl ⟨_, _, rfl⟩
    · cases (exec_sample_inside hfull).symm.trans h
      exact .inr (by simp [loAdvance_keeps])
  | nop | poll | consume | peek | sshr =>
    cases h
    exact .inr ⟨rfl, rfl⟩

/-- The report of `CONSUME` and `PEEK` is made of the mailbox alone (R33). -/
theorem mailboxReport_congr (c : Config) {r₁ r₂ : Regs} (hexc : r₁.pubExc = r₂.pubExc) (hbg : r₁.pubBg = r₂.pubBg)
    (hready : r₁.ready = r₂.ready) : mailboxReport c r₁ = mailboxReport c r₂ := by
  simp only [mailboxReport, scaledDiff, excScaled, bgScaled, hexc, hbg, hready]

end Sys2Proof.Machine
end

section
namespace Sys2Proof.Proofs

open Sys2Proof.Machine Sys2Proof.Safety

/-- Settles O2: the constraint a step names is the first failure (`firstFailure_of_step`), and the search for it passed over
those before. -/
theorem refusedConfigurationNamesFirstFailure : Obligations.RefusedConfigurationNamesFirstFailure := by
  unfold Obligations.RefusedConfigurationNamesFirstFailure
  intro s k hstep
  have hk := firstFailure_of_step hstep
  have hmark : (State.resetWith s.cfg).refused = [.configuration k] := by simp [State.resetWith, configMark, hk]
  obtain ⟨hfails, before, after, hsplit, hbefore⟩ := List.find?_eq_some_iff_append.mp hk
  exact ⟨by simpa using hfails, ⟨before, after, hsplit, by simpa using hbefore⟩, hmark⟩

/-- Settles O11: the step's equation on an accepted transaction (`step_accepted`). -/
theorem stepRunsTheDecodedCommand : Obligations.StepRunsTheDecodedCommand := by
  unfold Obligations.StepRunsTheDecodedCommand
  exact fun _ _ _ _ hc hi hd => step_accepted hc hi hd

/-- Settles O12: the step's equation on a refused transaction (`step_refused`), with the refusal written out. -/
theorem refusedTransactionOnlySetsTheMark : Obligations.RefusedTransactionOnlySetsTheMark := by
  unfold Obligations.RefusedTransactionOnlySetsTheMark
  exact fun _ _ _ _ hc hi hd => step_refused hc hi hd

/-- Settles O13: a refusal adds its record and nothing else adds any; a reset, a refusal and a command do the same whatever
the mark holds. -/
theorem markIsStickyAndInert : Obligations.MarkIsStickyAndInert := by
  unfold Obligations.MarkIsStickyAndInert
  refine ⟨fun c hc => ?unadmitted, fun s t hstep => ?step⟩
  case unadmitted =>
    obtain ⟨k, hk⟩ := Config.exists_firstFailure_of_not_admitted hc
    simp [State.resetWith, configMark, hk]
  case step =>
    obtain ⟨hc, ⟨rest, hi, rfl⟩ | ⟨tx, rest, why, hi, hd, rfl⟩ | ⟨tx, rest, i, hi, hd, hexec⟩⟩ := step_cases hstep
    · refine ⟨[], by simp, by simp [hi], fun mark => ?_⟩
      rw [List.append_nil]
      exact step_reset (s := { s with refused := mark }) hc hi
    · exact ⟨_, rfl, by simp, fun mark => step_refused (s := { s with refused := mark }) hc hi hd⟩
    · obtain ⟨-, -, hmark⟩ := exec_keeps_surroundings hexec
      refine ⟨[], by simpa using hmark, fun tx' rest' why hi' hd' => ?_, fun mark => ?_⟩
      · cases hi.symm.trans hi'
        cases hd.symm.trans hd'
      · rw [List.append_nil]
        exact (step_accepted (s := { s with refused := mark }) hc hi hd).trans (exec_mark_inert mark hexec)

/-- Settles O14: a step takes an event and writes no configuration (`step_takes_event`). -/
theorem configurationNeverChanges : Obligations.ConfigurationNeverChanges := by
  unfold Obligations.ConfigurationNeverChanges
  exact fun _ _ hstep => (step_takes_event hstep).1

/-- Settles O15: the event a step takes is the head of the list, and a command leaves the tail alone
(`step_takes_event`). -/
theorem stepTakesExactlyOneEvent : Obligations.StepTakesExactlyOneEvent := by
  unfold Obligations.StepTakesExactlyOneEvent
  exact fun _ _ hstep => (step_takes_event hstep).2

/-- Settles O16: every event has its step (`step_completes`), and without one there is none (`step_noEvent`). -/
theorem blockStepsOnEveryEvent : Obligations.BlockStepsOnEveryEvent := by
  unfold Obligations.BlockStepsOnEveryEvent
  refine fun s hc => ⟨fun hne => ?_, step_noEvent hc⟩
  obtain ⟨e, rest, hi⟩ := List.exists_cons_of_ne_nil hne
  exact step_completes hc hi

/-- Settles O38: a refusal keeps the pair, and a command that does not is a publish by its response
(`exec_published_cases`). -/
theorem onlyPublishWritesThePublishedPair : Obligations.OnlyPublishWritesThePublishedPair := by
  unfold Obligations.OnlyPublishWritesThePublishedPair
  intro s t hstep hmoved
  obtain ⟨-, ⟨rest, hi, rfl⟩ | ⟨tx, rest, why, hi, -, rfl⟩ | ⟨tx, rest, i, hi, -, hexec⟩⟩ := step_cases hstep
  · exact .inr (by simp [hi])
  · simp at hmoved
  · rcases exec_published_cases hexec with hpub | ⟨hexc, hbg⟩
    · exact .inl hpub
    · simp [hexc, hbg] at hmoved

/-- Settles O34: a read-only command answers the state as it stands (`exec_readOnly`). -/
theorem readOnlyCommandsKeepEveryRegister : Obligations.ReadOnlyCommandsKeepEveryRegister := by
  unfold Obligations.ReadOnlyCommandsKeepEveryRegister
  intro i s t hi hexec
  obtain ⟨rsp, hexec'⟩ := exec_readOnly s (i := i) (by rintro raw rfl; simp at hi) (by rintro rfl; simp at hi)
  cases hexec'.symm.trans hexec
  exact ⟨rfl, rfl, rfl, rfl, rfl⟩

/-- Settles O35: the clear of `READY` is the one write, and of a clear `READY` it is none. -/
theorem consumeChangesOnlyReady : Obligations.ConsumeChangesOnlyReady := by
  unfold Obligations.ConsumeChangesOnlyReady
  intro s t hexec
  cases hexec
  refine ⟨rfl, rfl, rfl, rfl, rfl, rfl, rfl, rfl, rfl, rfl, rfl, rfl, fun hready => ?_⟩
  simp [Regs.clearReady, ← hready]

/-- Settles O36: read off the whole effect (`sampleRunsItsSteps`) where nothing is published, and where nothing flips
either. -/
theorem sampleFrame : Obligations.SampleFrame := by
  unfold Obligations.SampleFrame
  intro raw s t hexec
  cases (sampleRunsItsSteps.2 s raw).symm.trans hexec
  refine ⟨rfl, rfl, rfl, fun hin => ?_⟩
  simp +contextual [hin]

/-- Settles O40: in the whole effect (`sampleRunsItsSteps`) of a step that publishes, the old pair and `READY` do not
occur. -/
theorem publishLeavesNothingOfTheOldWindow : Obligations.PublishLeavesNothingOfTheOldWindow := by
  unfold Obligations.PublishLeavesNothingOfTheOldWindow
  intro s raw pe pb rdy hfull
  refine ⟨_, sampleRunsItsSteps.2 s raw, ?_⟩
  rw [sampleRunsItsSteps.2]
  simp [hfull]

/-- Settles O41: each response but that of `SAMPLE` is made of the configuration, the command and the mailbox
(`mailboxReport_congr`). -/
theorem consumerSeesOnlyTheMailbox : Obligations.ConsumerSeesOnlyTheMailbox := by
  unfold Obligations.ConsumerSeesOnlyTheMailbox
  intro s₁ s₂ i hs hcfg hexc hbg hready
  have hreport := mailboxReport_congr s₂.cfg hexc hbg hready
  cases i with
  | sample raw => exact absurd rfl (hs raw)
  | nop => exact ⟨_, _, rfl, rfl, rfl, rfl⟩
  | poll => exact ⟨_, _, rfl, rfl, by simp [hready], rfl⟩
  | consume => exact ⟨_, _, rfl, rfl, by simp [hcfg, hreport], rfl⟩
  | peek => exact ⟨_, _, rfl, rfl, by simp [hcfg, hreport], rfl⟩
  | sshr x n => exact ⟨_, _, rfl, rfl, by simp [hcfg], rfl⟩

/-- Settles O42: the second report is made of the registers the first command left, which differ in `READY` at most. -/
theorem peekIsRepeatable : Obligations.PeekIsRepeatable := by
  unfold Obligations.PeekIsRepeatable
  exact fun s => ⟨⟨_, _, mailboxReport s.cfg s.regs, rfl, rfl, rfl, rfl⟩,
    ⟨_, _, mailboxReport s.cfg s.regs, rfl, rfl, rfl, rfl⟩⟩

end Sys2Proof.Proofs
end

section
/-! SUPPORT. The mailbox of a run from reset: what it holds, when it is empty and when it is unread (spec/10_state.md R29, R34;
spec/40_engine.md R69; spec/70_reset_and_hazards.md R115). -/

namespace Sys2Proof.Machine

variable {w n : Nat} {x y : Word} {c : Config} {r : Regs}

/-- A pattern in the non-negative signed range is known by its value. -/
theorem eq_of_sintW_eq (h1 : 1 ≤ w) (hx : x.toNat < 2 ^ (w - 1)) (hy : y.toNat < 2 ^ (w - 1))
    (h : sintW w x = sintW w y) : x = y := by
  rw [sintW_of_lt_half h1 hx, sintW_of_lt_half h1 hy] at h
  exact BitVec.eq_of_toNat_eq (Int.ofNat.inj h)

theorem sintW_zero (h1 : 1 ≤ w) : sintW w 0#64 = 0 := sintW_of_lt_half h1 (Nat.two_pow_pos _)

theorem scaleW_zero (h1 : 1 ≤ w) (hw : w ≤ 64) : scaleW w 0#64 n = 0#64 := by
  rw [scaleW_eq_wrapW_tdiv h1 hw, sintW_zero h1, Int.zero_tdiv]
  simp [wrapW]

/-- The report on an empty mailbox that nothing was published to. -/
theorem mailboxReport_empty (hc : c.Admitted) (hready : r.ready = false) (hexc : r.pubExc = 0#64)
    (hbg : r.pubBg = 0#64) : mailboxReport c r = ⟨false, 0#64, 0#64, 0#64, 0#64, 0#64⟩ := by
  have hscale := fun k => scaleW_zero (n := k) (Config.w_pos hc) (Config.w_le hc)
  simp [mailboxReport, scaledDiff, excScaled, bgScaled, hready, hexc, hbg, hscale, wrapW]

end Sys2Proof.Machine

namespace Sys2Proof.Safety

open Sys2Proof.Machine

variable {c : Config} {h : History} {s t : State} {vs : List Nat} {k m : Nat}

/-! ## Runs keep the invariant -/

theorem exists_step_of_run (hrun : run (k + 1) s = .next t) : ∃ u, step s = .next u ∧ run k u = .next t := by
  cases hstep : step s with
  | next u => exact ⟨u, rfl, (run_succ hstep).symm.trans hrun⟩
  | fault f => cases f
  | refused why =>
    simp only [run, Host.Core.run] at hrun
    rw [show core.step s = .refused why from hstep] at hrun
    cases hrun

theorem Inv.of_run (hi : Inv s) (hrun : run k s = .next t) : Inv t := by
  induction k generalizing s with
  | zero =>
    cases hrun
    exact hi
  | succ k ih =>
    obtain ⟨u, hstep, hrun⟩ := exists_step_of_run hrun
    exact ih (hi.of_step hstep) hrun

/-- A run from reset ends in a state of the invariant that its history leaves. -/
theorem run_from_reset_follows_inv (hc : c.Admitted) (es rest : List Event) :
    ∃ t, run es.length { State.resetWith c with inputs := es ++ rest } = .next t ∧ t.cfg = c ∧
      Follows (historyOf c es) t ∧ Inv t := by
  obtain ⟨t, hrun, hcfg, -, hf⟩ := run_from_reset_follows hc es rest
  have hstart : Inv { State.resetWith c with inputs := es ++ rest } := inv_reset hc rfl
  exact ⟨t, hrun, hcfg, hf, hstart.of_run hrun⟩

/-- Each of the four sums is in the non-negative signed range. -/
theorem Inv.sums_lt_half (hi : Inv s) :
    s.regs.accExc.toNat < 2 ^ (s.cfg.w - 1) ∧ s.regs.accBg.toNat < 2 ^ (s.cfg.w - 1) ∧
    s.regs.pubExc.toNat < 2 ^ (s.cfg.w - 1) ∧ s.regs.pubBg.toNat < 2 ^ (s.cfg.w - 1) := by
  have hB := Config.half_window_sum_lt hi.admitted
  obtain ⟨hexc, hbg⟩ := hi.acc_le
  exact ⟨hexc.trans_lt hB, hbg.trans_lt hB, hi.pubExc_le.trans_lt hB, hi.pubBg_le.trans_lt hB⟩

/-! ## The last window -/

theorem lastWindow_of_none (h0 : vs.length / c.windowLength = 0) : lastWindow c vs = [] := by
  simp only [lastWindow, h0]

theorem lastWindow_eq_window (hm : vs.length / c.windowLength = m + 1) : lastWindow c vs = window c vs m := by
  simp only [lastWindow, hm]

/-- Before the first complete window the published pair holds its reset value. -/
theorem Follows.published_zero (hf : Follows h s) (hi : Inv s) (h0 : h.samples.length / s.cfg.windowLength = 0) :
    s.regs.pubExc = 0#64 ∧ s.regs.pubBg = 0#64 := by
  have h1 := Config.w_pos hi.admitted
  have hzero := Nat.two_pow_pos (s.cfg.w - 1)
  obtain ⟨-, -, hexc_lt, hbg_lt⟩ := hi.sums_lt_half
  have hexc := hf.pubExc_eq
  have hbg := hf.pubBg_eq
  rw [lastWindow_of_none h0] at hexc hbg
  exact ⟨eq_of_sintW_eq h1 hexc_lt hzero (hexc.trans (sintW_zero h1).symm),
    eq_of_sintW_eq h1 hbg_lt hzero (hbg.trans (sintW_zero h1).symm)⟩

/-- The samples decide every register but `READY`: under the invariant a sum is known by its signed value. -/
theorem Follows.regs_eq_but_ready {r : Regs} {unread unread' : Nat} (hf : Follows ⟨vs, unread⟩ s)
    (hf' : Follows ⟨vs, unread'⟩ { s with regs := r }) (hi : Inv s) (hi' : Inv { s with regs := r }) :
    { s.regs with ready := r.ready } = r := by
  have h1 := Config.w_pos hi.admitted
  obtain ⟨hexc, hbg, hpexc, hpbg⟩ := hi.sums_lt_half
  obtain ⟨hexc', hbg', hpexc', hpbg'⟩ := hi'.sums_lt_half
  have hphase : s.regs.exciting = r.exciting := hf.exciting_eq.trans hf'.exciting_eq.symm
  have hout : s.regs.modOut = r.modOut := by
    rw [hf.modOut_eq, hphase]
    exact hf'.modOut_eq.symm
  dsimp only
  rw [hphase, hout, hf.scnt_eq.trans hf'.scnt_eq.symm, hf.pcnt_eq.trans hf'.pcnt_eq.symm,
    eq_of_sintW_eq h1 hexc hexc' (hf.accExc_eq.trans hf'.accExc_eq.symm),
    eq_of_sintW_eq h1 hbg hbg' (hf.accBg_eq.trans hf'.accBg_eq.symm),
    eq_of_sintW_eq h1 hpexc hpexc' (hf.pubExc_eq.trans hf'.pubExc_eq.symm),
    eq_of_sintW_eq h1 hpbg hpbg' (hf.pubBg_eq.trans hf'.pubBg_eq.symm)]

/-! ## Unread windows -/

theorem command_unread_le (c : Config) (h : History) (i : Instr) (hle : h.unread ≤ h.samples.length / c.windowLength) :
    (h.command c i).unread ≤ (h.command c i).samples.length / c.windowLength := by
  cases i with
  | nop | poll | peek | sshr => exact hle
  | consume => exact Nat.zero_le _
  | sample raw =>
    simp only [History.command, List.length_append, List.length_singleton, Nat.succ_div, Nat.dvd_iff_mod_eq_zero]
    split <;> omega

/-- No more windows are unread than were completed. -/
theorem event_unread_le (c : Config) (h : History) (e : Event) (hle : h.unread ≤ h.samples.length / c.windowLength) :
    (h.event c e).unread ≤ (h.event c e).samples.length / c.windowLength := by
  cases e with
  | reset => exact Nat.zero_le _
  | transaction tx =>
    cases hd : decode c tx with
    | error why => rwa [event_refused hd]
    | ok i =>
      rw [event_accepted hd]
      exact command_unread_le c h i hle

theorem historyOf_unread_le (c : Config) (es : List Event) :
    (historyOf c es).unread ≤ (historyOf c es).samples.length / c.windowLength := by
  induction es using List.reverseRecOn with
  | nil => exact Nat.zero_le _
  | append_singleton es e ih =>
    rw [historyOf_snoc]
    exact event_unread_le c _ e ih

end Sys2Proof.Safety
end

section
namespace Sys2Proof.Proofs

open Sys2Proof.Machine Sys2Proof.Safety

/-- Settles O48: the run's last state follows its history, and a signed value of 0 is the pattern 0 under the invariant. -/
theorem mailboxHoldsTheLastWindow : Obligations.MailboxHoldsTheLastWindow := by
  unfold Obligations.MailboxHoldsTheLastWindow
  intro c es rest hc
  obtain ⟨t, hrun, rfl, hf, hi⟩ := run_from_reset_follows_inv hc es rest
  refine ⟨t, hrun, fun h0 => hf.published_zero hi h0, fun m hm => ?_⟩
  rw [hf.pubExc_eq, hf.pubBg_eq, lastWindow_eq_window hm]
  exact ⟨rfl, rfl⟩

/-- Settles O49: the run's last state follows its history. -/
theorem readyMeansAnUnreadWindow : Obligations.ReadyMeansAnUnreadWindow := by
  unfold Obligations.ReadyMeansAnUnreadWindow
  intro c es rest hc
  obtain ⟨t, hrun, rfl, -, hf⟩ := run_from_reset_follows hc es rest
  exact ⟨t, hrun, by simp [hf.ready_eq]⟩

/-- Settles O5: with fewer than `L` samples no window is complete, so none is unread and the pair is still 0. -/
theorem mailboxIsEmptyBeforeFirstPublish : Obligations.MailboxIsEmptyBeforeFirstPublish := by
  unfold Obligations.MailboxIsEmptyBeforeFirstPublish
  intro c es rest hc hlt
  obtain ⟨t, hrun, rfl, hf, hi⟩ := run_from_reset_follows_inv hc es rest
  have h0 : (historyOf t.cfg es).samples.length / t.cfg.windowLength = 0 := Nat.div_eq_of_lt hlt
  have hunread := historyOf_unread_le t.cfg es
  rw [h0, Nat.le_zero] at hunread
  have hready : t.regs.ready = false := by rw [hf.ready_eq, hunread]; rfl
  obtain ⟨hexc, hbg⟩ := hf.published_zero hi h0
  have hreport := mailboxReport_empty hc hready hexc hbg
  exact ⟨t, hrun, hready, ⟨_, rfl, by rw [← hreport]; rfl⟩, ⟨_, rfl, by rw [← hreport]; rfl⟩⟩

/-- Settles O53: the samples decide every register that `Follows` speaks of, and under the invariant a sum is known by its
signed value. -/
theorem consumerCannotDisturbTheProducer : Obligations.ConsumerCannotDisturbTheProducer := by
  unfold Obligations.ConsumerCannotDisturbTheProducer
  intro c es₁ es₂ hc hsamples
  obtain ⟨t₁, hrun₁, hcfg₁, hf₁, hi₁⟩ := run_from_reset_follows_inv hc es₁ []
  obtain ⟨t₂, hrun₂, hcfg₂, hf₂, hi₂⟩ := run_from_reset_follows_inv hc es₂ []
  rw [List.append_nil] at hrun₁ hrun₂
  have hcfg : t₁.cfg = t₂.cfg := hcfg₁.trans hcfg₂.symm
  have hf₁' : Follows ⟨(historyOf c es₂).samples, (historyOf c es₁).unread⟩ t₁ := hsamples ▸ hf₁
  exact ⟨t₁, t₂, hrun₁, hrun₂, hf₁'.regs_eq_but_ready (hf₂.congr hcfg rfl) hi₁ (hi₂.congr hcfg rfl)⟩

end Sys2Proof.Proofs
end

section
/-! SUPPORT. What the consumer of a run is told, while it keeps up (spec/20_memory.md R45). -/

namespace Sys2Proof.Safety

open Sys2Proof.Machine

variable {c : Config} {h : History} {s t : State} {vs : List Nat} {k v : Nat} {i : Instr}

/-! ## The windows read so far -/

/-- The two sums of a report, as signed integers. -/
def reportedSums (c : Config) (m : MailboxReport) : Int × Int := (sintW c.w m.excRaw, sintW c.w m.bgRaw)

/-- The two bucket sums of a window. -/
def windowSums (c : Config) (ws : List Nat) : Int × Int := ((excSum c ws : Int), (bgSum c ws : Int))

/-- The sums of the windows completed and no longer unread, in order: what a consumer that keeps up was told (R45). -/
def readSums (c : Config) (h : History) : List (Int × Int) :=
  (List.range (h.samples.length / c.windowLength - h.unread)).map fun k => windowSums c (window c h.samples k)

@[simp] theorem readSums_start (c : Config) : readSums c History.start = [] := by simp [readSums, History.start]

/-- A complete window is not touched by a later sample. -/
theorem window_snoc (hk : k < vs.length / c.windowLength) : window c (vs ++ [v]) k = window c vs k := by
  have hle : (k + 1) * c.windowLength ≤ vs.length :=
    (Nat.mul_le_mul_right _ hk).trans (Nat.div_mul_le_self _ _)
  rw [Nat.add_mul, Nat.one_mul] at hle
  simp only [window]
  rw [List.drop_append_of_le_length (by omega), List.take_append_of_le_length (by simp only [List.length_drop]; omega)]

/-- A sample completes an unread window or none, so it leaves the windows read alone. -/
theorem readSums_sample (c : Config) (h : History) (raw : Word) :
    readSums c (h.command c (.sample raw)) = readSums c h := by
  have hcount : (h.command c (.sample raw)).samples.length / c.windowLength - (h.command c (.sample raw)).unread =
      h.samples.length / c.windowLength - h.unread := by
    simp only [History.command, List.length_append, List.length_singleton, Nat.succ_div, Nat.dvd_iff_mod_eq_zero]
    split <;> omega
  rw [readSums, hcount]
  refine List.map_congr_left fun k hk => congrArg _ (window_snoc ?_)
  exact (List.mem_range.mp hk).trans_le (Nat.sub_le _ _)

/-- A `CONSUME` reads the one unread window, which is the last (R45, R69). -/
theorem readSums_consume_unread (c : Config) (h : History) (hu : h.unread = 1)
    (hle : h.unread ≤ h.samples.length / c.windowLength) :
    readSums c (h.command c .consume) = readSums c h ++ [windowSums c (lastWindow c h.samples)] := by
  obtain ⟨m, hm⟩ := Nat.exists_eq_add_of_le' (hu ▸ hle)
  simp [readSums, History.command, hu, hm, lastWindow_eq_window hm, List.range_succ]

theorem readSums_consume_read (c : Config) (h : History) (hu : h.unread = 0) :
    readSums c (h.command c .consume) = readSums c h := by
  simp [readSums, History.command, hu]

/-! ## The reports of a run -/

theorem validConsume_of_not_consume (hc : i ≠ .consume) (hexec : exec i s = .next t) : validConsume t = none := by
  cases i with
  | consume => exact absurd rfl hc
  | nop | sample | poll | peek | sshr =>
    cases hexec
    rfl

theorem validConsume_of_consume (hexec : exec .consume s = .next t) :
    validConsume t = if s.regs.ready then some (mailboxReport s.cfg s.regs) else none := by
  cases hexec
  rfl

/-- The published pair is the last window's sums. -/
theorem Follows.reportedSums_eq (hf : Follows h s) :
    reportedSums s.cfg (mailboxReport s.cfg s.regs) = windowSums s.cfg (lastWindow s.cfg h.samples) :=
  Prod.ext hf.pubExc_eq hf.pubBg_eq

/-- A command reports the sums of the windows that it takes from unread to read, while at most one is unread. -/
theorem Follows.exec_reports (hf : Follows h s) (hle : h.unread ≤ h.samples.length / s.cfg.windowLength)
    (hone : h.unread ≤ 1) (hexec : exec i s = .next t) :
    readSums s.cfg h ++ (validConsume t).toList.map (reportedSums s.cfg) = readSums s.cfg (h.command s.cfg i) := by
  by_cases hc : i = .consume
  · subst hc
    rw [validConsume_of_consume hexec, hf.ready_eq]
    rcases Nat.le_one_iff_eq_zero_or_eq_one.mp hone with hu | hu
    · simp [hu, readSums_consume_read]
    · simp [hu, readSums_consume_unread s.cfg h hu hle, hf.reportedSums_eq]
  · rw [validConsume_of_not_consume hc hexec]
    refine (List.append_nil _).trans ?_
    by_cases hs : ∃ raw, i = .sample raw
    · obtain ⟨raw, rfl⟩ := hs
      exact (readSums_sample s.cfg h raw).symm
    · rw [command_readOnly s.cfg h (fun raw hi => hs ⟨raw, hi⟩) hc]

theorem Follows.step_reports {tx : Transaction} {rest : List Event} (hf : Follows h s)
    (hle : h.unread ≤ h.samples.length / s.cfg.windowLength) (hone : h.unread ≤ 1)
    (hi : s.inputs = .transaction tx :: rest) (hstep : step s = .next t) :
    readSums s.cfg h ++ (validConsume t).toList.map (reportedSums s.cfg) =
      readSums s.cfg (h.event s.cfg (.transaction tx)) := by
  cases hd : decode s.cfg tx with
  | error why =>
    cases (step_refused hf.admitted hi hd).symm.trans hstep
    rw [event_refused hd]
    exact List.append_nil _
  | ok i =>
    have hf' : Follows h { s with inputs := rest } := hf.congr rfl rfl
    rw [step_accepted hf.admitted hi hd] at hstep
    rw [event_accepted hd]
    exact hf'.exec_reports hle hone hstep

/-- A run without a reset, at no point of which two windows are unread, reports the windows that it takes to read. -/
theorem Follows.run_reports (es : List Event) {rest : List Event} (hf : Follows h s)
    (hle : h.unread ≤ h.samples.length / s.cfg.windowLength) (hi : s.inputs = es ++ rest) (hes : Event.reset ∉ es)
    (hone : ∀ k ≤ es.length, ((es.take k).foldl (History.event s.cfg) h).unread ≤ 1) :
    readSums s.cfg h ++ (validReportsOver es.length s).map (reportedSums s.cfg) =
      readSums s.cfg (es.foldl (History.event s.cfg) h) := by
  induction es generalizing h s with
  | nil => exact List.append_nil _
  | cons e es ih =>
    obtain ⟨hne, hes'⟩ := not_or.1 (mt List.mem_cons.2 hes)
    obtain ⟨t, hstep, hin, hcfg, hft⟩ := hf.step_next hi
    cases e with
    | reset => exact absurd rfl hne
    | transaction tx =>
      have hreport := hf.step_reports hle (hone 0 (Nat.zero_le _)) hi hstep
      have hrun := ih hft (by rw [hcfg]; exact event_unread_le s.cfg h _ hle) hin hes'
        (by rw [hcfg]; exact fun k hk => hone (k + 1) (Nat.succ_le_succ hk))
      rw [hcfg] at hrun
      rw [List.length_cons, validReportsOver_succ hstep, List.map_append, ← List.append_assoc, hreport]
      exact hrun

end Sys2Proof.Safety
end

section
namespace Sys2Proof.Proofs

open Sys2Proof.Machine Sys2Proof.Safety

/-- Settles O50: the reports of the run are the sums of the windows read by its end (`Follows.run_reports`). -/
theorem keepingUpReportsEachWindowOnce : Obligations.KeepingUpReportsEachWindowOnce := by
  unfold Obligations.KeepingUpReportsEachWindowOnce
  intro c es rest hc hes hkeeps
  have hstart : Follows History.start { State.resetWith c with inputs := es ++ rest } := follows_start hc rfl
  have hrun := hstart.run_reports es (Nat.zero_le _) rfl hes hkeeps
  rwa [readSums_start, List.nil_append] at hrun

end Sys2Proof.Proofs
end

section
/-! SUPPORT. How the samples of a run bring `READY` forward (spec/70_reset_and_hazards.md R123). -/

namespace Sys2Proof.Safety

open Sys2Proof.Machine

variable {s t : State} {i : Instr}

/-- A transaction adds the same samples to every history. -/
theorem event_samples (c : Config) (h : History) (tx : Transaction) :
    (h.event c (.transaction tx)).samples = h.samples ++ (History.start.event c (.transaction tx)).samples := by
  cases hd : decode c tx with
  | error why => simp [event_refused hd, History.start]
  | ok i =>
    rw [event_accepted hd, event_accepted hd]
    cases i with
    | nop | sample | poll | consume | peek | sshr => simp [History.command, History.start]

/-- Events without a reset add the same samples to every history. -/
theorem foldl_event_samples (c : Config) (h : History) (es : List Event) (hes : Event.reset ∉ es) :
    (es.foldl (History.event c) h).samples = h.samples ++ (historyOf c es).samples := by
  induction es using List.reverseRecOn with
  | nil => exact (List.append_nil _).symm
  | append_singleton es e ih =>
    obtain ⟨hes', hne⟩ := not_or.1 (mt List.mem_append.2 hes)
    cases e with
    | reset => simp at hne
    | transaction tx =>
      rw [historyOf_snoc, event_samples c (historyOf c es), ← List.append_assoc, ← ih hes', List.foldl_append]
      exact event_samples c _ tx

theorem historyOf_cons_samples (c : Config) (tx : Transaction) (es : List Event) (hes : Event.reset ∉ es) :
    (historyOf c (.transaction tx :: es)).samples =
      (History.start.event c (.transaction tx)).samples ++ (historyOf c es).samples :=
  foldl_event_samples c _ es hes

/-- `READY` after `m` more samples and no clear: raised if they complete the window in progress (R123). -/
def readyAfter (s : State) (m : Nat) : Bool := s.regs.ready || decide (s.cfg.windowLength ≤ s.regs.scnt + m)

/-- A command but `CONSUME` brings `READY` forward by the samples that it adds. -/
theorem exec_readyAfter (hc : i ≠ .consume) (hexec : exec i s = .next t) (m : Nat) :
    readyAfter t m = readyAfter s ((History.start.command s.cfg i).samples.length + m) := by
  by_cases hs : ∃ raw, i = .sample raw
  · obtain ⟨raw, rfl⟩ := hs
    have hone : (History.start.command s.cfg (.sample raw)).samples.length = 1 := rfl
    rw [hone]
    by_cases hfull : s.regs.scnt + 1 = s.cfg.windowLength
    · cases (exec_sample_boundary hfull).symm.trans hexec
      simp [readyAfter, loResync_keeps, loAdvance_keeps, ← hfull]
    · cases (exec_sample_inside hfull).symm.trans hexec
      simp [readyAfter, loAdvance_keeps, Nat.add_assoc]
  · have hs' : ∀ raw, i ≠ .sample raw := fun raw hi => hs ⟨raw, hi⟩
    obtain ⟨rsp, hexec'⟩ := exec_readOnly s hs' hc
    cases hexec'.symm.trans hexec
    rw [command_readOnly s.cfg History.start hs' hc]
    exact congrArg (readyAfter s) (Nat.zero_add m).symm

theorem step_readyAfter {tx : Transaction} {rest : List Event} (hi : s.inputs = .transaction tx :: rest)
    (hcons : decode s.cfg tx ≠ .ok .consume) (hstep : step s = .next t) (m : Nat) :
    readyAfter t m = readyAfter s ((History.start.event s.cfg (.transaction tx)).samples.length + m) := by
  obtain ⟨hc, -⟩ := step_cases hstep
  cases hd : decode s.cfg tx with
  | error why =>
    cases (step_refused hc hi hd).symm.trans hstep
    rw [event_refused hd]
    exact congrArg (readyAfter s) (Nat.zero_add m).symm
  | ok i =>
    rw [step_accepted hc hi hd] at hstep
    rw [event_accepted hd]
    exact exec_readyAfter (fun hi => hcons (hi ▸ hd)) hstep m

theorem Inv.readyAfter_zero (hi : Inv s) : readyAfter s 0 = s.regs.ready := by
  simp [readyAfter, hi.scnt_lt]

/-- A run without a reset or a `CONSUME` ends with `READY` as its samples bring it forward. -/
theorem Inv.run_readyAfter (es : List Event) {rest : List Event} (hi : Inv s) (hin : s.inputs = es ++ rest)
    (hes : Event.reset ∉ es) (hcons : ∀ tx, Event.transaction tx ∈ es → decode s.cfg tx ≠ .ok .consume) :
    ∃ t, run es.length s = .next t ∧ t.inputs = rest ∧
      t.regs.ready = readyAfter s (historyOf s.cfg es).samples.length := by
  induction es generalizing s with
  | nil => exact ⟨s, rfl, hin, hi.readyAfter_zero.symm⟩
  | cons e es ih =>
    obtain ⟨hne, hes'⟩ := not_or.1 (mt List.mem_cons.2 hes)
    cases e with
    | reset => exact absurd rfl hne
    | transaction tx =>
      obtain ⟨u, hstep⟩ := step_completes hi.admitted hin
      obtain ⟨hcfg, e, htaken⟩ := step_takes_event hstep
      have hu : u.inputs = es ++ rest := (List.cons.inj (htaken.symm.trans hin)).2
      obtain ⟨t, hrun, hrest, hready⟩ := ih (hi.of_step hstep) hu hes'
        (by rw [hcfg]; exact fun tx htx => hcons tx (List.mem_cons_of_mem _ htx))
      refine ⟨t, (run_succ hstep).trans hrun, hrest, hready.trans ?_⟩
      rw [step_readyAfter hin (hcons tx List.mem_cons_self) hstep, hcfg, historyOf_cons_samples s.cfg tx es hes',
        List.length_append]

end Sys2Proof.Safety
end

section
namespace Sys2Proof.Proofs

open Sys2Proof.Machine Sys2Proof.Safety

/-- Settles O54: the run brings `READY` forward by its samples (`Inv.run_readyAfter`), and fewer than the rest of the window
do not complete it. -/
theorem deliveredWindowRaisesReady : Obligations.DeliveredWindowRaisesReady := by
  unfold Obligations.DeliveredWindowRaisesReady
  intro s es rest hi hes hcons
  have hi' : Inv { s with inputs := es ++ rest } := hi.congr rfl rfl
  obtain ⟨t, hrun, hrest, hready⟩ := hi'.run_readyAfter es rfl hes hcons
  refine ⟨t, hrun, hrest, fun hm => ?_, fun hm => ?_⟩
  · have hfull : s.cfg.windowLength ≤ s.regs.scnt + (historyOf s.cfg es).samples.length := Nat.sub_le_iff_le_add'.mp hm
    simp [hready, readyAfter, hfull]
  · have hshort : s.regs.scnt + (historyOf s.cfg es).samples.length < s.cfg.windowLength := Nat.add_lt_of_lt_sub' hm
    simp [hready, readyAfter, hshort]

end Sys2Proof.Proofs
end

section
/-! SUPPORT. The pin at a flip, by the sample count (spec/41_lo_generator.md R79, R80). -/

namespace Sys2Proof.Safety

open Sys2Proof.Machine

variable {p n : Nat} {r : Regs}

/-- R80: a flip leaves the pin where it is exactly when it is the first since the reset. -/
theorem LoAt.modOut_advance_eq_iff (hp : 0 < p) (h : LoAt p n r) (hflip : (n + 1) % p = 0) :
    (loAdvance p r).regs.modOut = r.modOut ↔ n + 1 = p := by
  have hle : p ≤ n + 1 := Nat.le_of_dvd n.succ_pos (Nat.dvd_of_mod_eq_zero hflip)
  rw [(h.advance hp).modOut_eq_pinLevel hp, h.modOut_eq_pinLevel hp, Nat.succ_div_of_mod_eq_zero hflip,
    pinLevel_succ_eq_iff, Nat.div_eq_zero_iff_lt hp]
  omega

end Sys2Proof.Safety
end

section
namespace Sys2Proof.Proofs

open Sys2Proof.Machine Sys2Proof.Safety

/-- Settles O59: a sample does to the LO what the advance does (`exec_sample_lo`), which flips at a multiple of `P`. -/
theorem sampleFlipsByTheSampleCount : Obligations.SampleFlipsByTheSampleCount := by
  unfold Obligations.SampleFlipsByTheSampleCount
  intro h s tx raw rest hf hi hd
  have hp := Config.p_pos hf.admitted
  have hf' : Follows h { s with inputs := rest } := hf.congr rfl rfl
  obtain ⟨t, -, hexec, hx, hout, -, hevs, -⟩ := exec_sample_lo raw hf'.last_sample
  have hcount : s.regs.pcnt + 1 = s.cfg.p ↔ (h.samples.length + 1) % s.cfg.p = 0 := by
    rw [hf.pcnt_eq, mod_add_one_eq_iff hp]
  refine ⟨t, (step_accepted hf.admitted hi hd).trans hexec, fun hflip => ?_, fun hflip => ?_⟩
  · have hpin := hf.loAt.modOut_advance_eq_iff hp hflip
    rw [← hout] at hpin
    rw [loAdvance_flip (hcount.mpr hflip)] at hx hevs
    exact ⟨hx, hx ▸ hevs, hpin⟩
  · rw [loAdvance_count (mt hcount.mp hflip)] at hx hout hevs
    exact ⟨hx, hevs, hout⟩

end Sys2Proof.Proofs
end
